-- ==== Sys2Proof/Word.lean ====
section
/-! DEFINITION. The machine's data types (`00_scope.md` §5 "Types"; `10_state.md` R10, R11, R16, R24). -/

namespace Sys2Proof

/-- R10: "a 16-bit unsigned quantity; all arithmetic on it wraps modulo 2^16". Registers, memory cells, addresses
and instructions are all Words. -/
abbrev Word := BitVec 16

/-- One byte of the external binary image (R33, R85); nothing inside the machine is a byte. -/
abbrev Byte := BitVec 8

/-- R11, R71: the 3-bit number of a general register; all eight values name a register. -/
abbrev Reg := BitVec 3

/-- R16: the condition register's value, "one of {ZERO, NEGATIVE, POSITIVE}, mutually exclusive". The spec gives it no
bit encoding and the model invents none. -/
inductive Cond where
  | zero
  | negative
  | positive
deriving DecidableEq, Repr, Inhabited

/-- R24, D8: the status a step returns. `cont` is CONTINUE, `halt` is HALT, `error` is ERROR. -/
inductive Status where
  | cont
  | halt
  | error
deriving DecidableEq, Repr, Inhabited

end Sys2Proof
end

