-- ==== Sys2Proof/Machine/BitField.lean ====
section
/-! DEFINITION. The bit-field utilities (`30_encoding.md` R52 to R56) and the field, sign-extension and range helpers the
codec and the engine are built from. A utility called outside its precondition has no meaning (R56, D18): the functions
with a question mark answer `none` there. -/

namespace Sys2Proof

/-- R52, precondition `n ≤ 15`: `get_bit(w, n) = (w >> n) mod 2`. -/
def getBit? (w : Word) (n : Nat) : Option Nat :=
  if n ≤ 15 then some (w.toNat / 2 ^ n % 2) else none

/-- R52, preconditions `n + width ≤ 16` and (R56) `width ≠ 0`: `get_bits(w, n, width) = (w >> n) mod 2^width`. -/
def getBits? (w : Word) (n width : Nat) : Option Nat :=
  if n + width ≤ 16 ∧ width ≠ 0 then some (w.toNat / 2 ^ n % 2 ^ width) else none

/-- R53, precondition `n ≤ 15`: the word with bit `n` forced to 1. -/
def setBit? (w : Word) (n : Nat) : Option Word :=
  if n ≤ 15 then some (w ||| (1#16 <<< n)) else none

/-- R53, precondition `n ≤ 15`: the word with bit `n` forced to 0. -/
def clearBit? (w : Word) (n : Nat) : Option Word :=
  if n ≤ 15 then some (w &&& ~~~(1#16 <<< n)) else none

/-- R54, D17, precondition `1 ≤ k ≤ 16`: the low `k` bits read as two's complement and widened to 16 bits. -/
def signExtend? (value : Word) (k : Nat) : Option Word :=
  if 1 ≤ k ∧ k ≤ 16 then
    let f := value.toNat % 2 ^ k
    if f / 2 ^ (k - 1) % 2 = 1 then some (BitVec.ofNat 16 (f + (65536 - 2 ^ k))) else some (BitVec.ofNat 16 f)
  else none

/-- R55: "negative iff bit 15 is 1". -/
def isNegative (w : Word) : Bool := w.getLsbD 15

/-- R55: the complement of `isNegative`; "the word 0 is classified positive". -/
def isPositive (w : Word) : Bool := !w.getLsbD 15

/-- The bit `w[n]` as the codec uses it, at constant positions within R52's precondition. -/
def bit (w : Word) (n : Nat) : Bool := w.getLsbD n

/-- The slice of `width` bits whose least significant bit is bit `lo` (R52), typed by its width. -/
def field (w : Word) (lo width : Nat) : BitVec width := w.extractLsb' lo width

/-- A field put at its place in an otherwise zero word, its least significant bit at bit `lo` (R76: `field << lo`). -/
def place {k : Nat} (f : BitVec k) (lo : Nat) : Word := f.setWidth 16 <<< lo

/-- `sext_k` of R54 and R70: a `k`-bit field widened to a Word by its sign bit. -/
def sext {k : Nat} (f : BitVec k) : Word := f.signExtend 16

/-- R77: an unsigned operand as a `k`-bit field, refused outside 0..2^k - 1, never truncated (D16). -/
def fieldOfNat? (k v : Nat) : Option (BitVec k) :=
  if v < 2 ^ k then some (BitVec.ofNat k v) else none

/-- R76, R77: a signed operand as a `k`-bit field, `v mod 2^k`, refused outside -2^(k-1)..2^(k-1) - 1 (D16, D25). -/
def fieldOfInt? (k : Nat) (v : Int) : Option (BitVec k) :=
  if -(2 ^ k : Int) ≤ 2 * v ∧ 2 * v < 2 ^ k then some (BitVec.ofInt k v) else none

end Sys2Proof
end

