-- ==== Sys2Proof/Syntax.lean ====
section
/-! DEFINITION. The instruction forms (`30_encoding.md` R62, R63): one constructor for each of the 19 rows of
`opcode_table.json`. Operands are the raw unsigned field values of R60 (registers 3 bits, imm5, off6, off9, off11). -/

namespace Sys2Proof

/-- R62: the sixteen values of the opcode field, by the spec's short names. -/
inductive Opcode where
  | br | add | ld | st | jsr | and | ldr | str | res8 | not | ldi | sti | jmp | res13 | lea | trap
deriving DecidableEq, Repr

/-- R63: a decoded instruction. TRAP, RES8 and RES13 carry the whole instruction word (R64, `90_conflicts.md` C11). -/
inductive Instr where
  /-- ADD_R, R100. -/
  | addR (dr sr1 sr2 : Reg)
  /-- ADD_I, R101. -/
  | addI (dr sr1 : Reg) (imm5 : BitVec 5)
  /-- AND_R, R102. -/
  | andR (dr sr1 sr2 : Reg)
  /-- AND_I, R103. -/
  | andI (dr sr1 : Reg) (imm5 : BitVec 5)
  /-- NOT, R104. -/
  | not (dr sr1 : Reg)
  /-- BR, R110. -/
  | br (n z p : Bool) (off9 : BitVec 9)
  /-- JMP, R111. -/
  | jmp (baseR : Reg)
  /-- JSR (long form), R112. -/
  | jsr (off11 : BitVec 11)
  /-- JSRR (register form), R113. -/
  | jsrr (baseR : Reg)
  /-- LD, R120. -/
  | ld (dr : Reg) (off9 : BitVec 9)
  /-- LDI, R121. -/
  | ldi (dr : Reg) (off9 : BitVec 9)
  /-- LDR, R122. -/
  | ldr (dr baseR : Reg) (off6 : BitVec 6)
  /-- LEA, R123. -/
  | lea (dr : Reg) (off9 : BitVec 9)
  /-- ST, R130. -/
  | st (sr : Reg) (off9 : BitVec 9)
  /-- STI, R131. -/
  | sti (sr : Reg) (off9 : BitVec 9)
  /-- STR, R132. -/
  | str (sr baseR : Reg) (off6 : BitVec 6)
  /-- TRAP, R140. -/
  | trap (iw : Word)
  /-- RES8, R145. -/
  | res8 (iw : Word)
  /-- RES13, R146. -/
  | res13 (iw : Word)
deriving DecidableEq, Repr

/-- R62, column "format(s)": the opcode a form belongs to. -/
def Instr.opcode : Instr → Opcode
  | .addR _ _ _ => .add
  | .addI _ _ _ => .add
  | .andR _ _ _ => .and
  | .andI _ _ _ => .and
  | .not _ _ => .not
  | .br _ _ _ _ => .br
  | .jmp _ => .jmp
  | .jsr _ => .jsr
  | .jsrr _ => .jsr
  | .ld _ _ => .ld
  | .ldi _ _ => .ldi
  | .ldr _ _ _ => .ldr
  | .lea _ _ => .lea
  | .st _ _ => .st
  | .sti _ _ => .sti
  | .str _ _ _ => .str
  | .trap _ => .trap
  | .res8 _ => .res8
  | .res13 _ => .res13

/-- R63, R80: the 17 legal forms; RES8 and RES13 are the two reserved ones. -/
def Instr.legal (i : Instr) : Bool :=
  i.opcode != .res8 && i.opcode != .res13

end Sys2Proof
end

