-- ==== Sys2Proof/Machine/OpcodeMap.lean ====
section
/-! DEFINITION. The numbers of the encoding in one place: the opcode map (`30_encoding.md` R62), the operand fields (R60)
and the service words (`44_system.md` R144). All of them but the opcode field's own position are the spec's decisions D2
to D7, taken from the LC-3 convention and confirmed by no source: PRESUMED (log 6). -/

namespace Sys2Proof

/-- R62, column OPC: the number of each opcode (D2, D3). -/
def Opcode.number : Opcode → BitVec 4
  | .br => 0
  | .add => 1
  | .ld => 2
  | .st => 3
  | .jsr => 4
  | .and => 5
  | .ldr => 6
  | .str => 7
  | .res8 => 8
  | .not => 9
  | .ldi => 10
  | .sti => 11
  | .jmp => 12
  | .res13 => 13
  | .lea => 14
  | .trap => 15

/-- R62 read from the number to the name; a 4-bit field has no other value. -/
def Opcode.ofNumber (op : BitVec 4) : Opcode :=
  match op.toNat with
  | 0 => .br
  | 1 => .add
  | 2 => .ld
  | 3 => .st
  | 4 => .jsr
  | 5 => .and
  | 6 => .ldr
  | 7 => .str
  | 8 => .res8
  | 9 => .not
  | 10 => .ldi
  | 11 => .sti
  | 12 => .jmp
  | 13 => .res13
  | 14 => .lea
  | _ => .trap

/-- R51, R60: OPC, bits 15:12. -/
def fieldOPC (iw : Word) : BitVec 4 := field iw 12 4
/-- R60: DR, bits 11:9 (ADD, AND, NOT, LD, LDI, LDR, LEA). -/
def fieldDR (iw : Word) : Reg := field iw 9 3
/-- R60: SR, bits 11:9 (ST, STI, STR). -/
def fieldSR (iw : Word) : Reg := field iw 9 3
/-- R60: n, bit 11. -/
def fieldN (iw : Word) : Bool := bit iw 11
/-- R60: z, bit 10. -/
def fieldZ (iw : Word) : Bool := bit iw 10
/-- R60: p, bit 9. -/
def fieldP (iw : Word) : Bool := bit iw 9
/-- R60, R65: L, bit 11; 1 is the PC-relative form of the subroutine call. -/
def fieldL (iw : Word) : Bool := bit iw 11
/-- R60: SR1, bits 8:6. -/
def fieldSR1 (iw : Word) : Reg := field iw 6 3
/-- R60: BaseR, bits 8:6. -/
def fieldBaseR (iw : Word) : Reg := field iw 6 3
/-- R60, R65: I, bit 5; 1 is the immediate form of ADD and AND. -/
def fieldI (iw : Word) : Bool := bit iw 5
/-- R60: SR2, bits 2:0. -/
def fieldSR2 (iw : Word) : Reg := field iw 0 3
/-- R60: imm5, bits 4:0. -/
def fieldImm5 (iw : Word) : BitVec 5 := field iw 0 5
/-- R60: off6, bits 5:0. -/
def fieldOff6 (iw : Word) : BitVec 6 := field iw 0 6
/-- R60: off9, bits 8:0. -/
def fieldOff9 (iw : Word) : BitVec 9 := field iw 0 9
/-- R60: off11, bits 10:0. -/
def fieldOff11 (iw : Word) : BitVec 11 := field iw 0 11
/-- R60, R72: trapvect8, bits 7:0; the encoder and the handler look at it, the engine never does. -/
def fieldTrapvect8 (iw : Word) : BitVec 8 := field iw 0 8

/-- R144: the word of character input, `getc`. -/
def wordGetc : Word := 0xF020
/-- R144: the word of character output, `out`. -/
def wordOut : Word := 0xF021
/-- R144: the word of string output, `puts`. -/
def wordPuts : Word := 0xF022
/-- R144: the word of line input, `in`. -/
def wordIn : Word := 0xF023
/-- R144: the word of packed-string output, `putsp`. -/
def wordPutsp : Word := 0xF024
/-- R143, R144: the word of the halt service, `halt`. -/
def wordHalt : Word := 0xF025

end Sys2Proof
end

