-- ==== Sys2Proof/WellFormed.lean ====
section
/-! DEFINITION. Which terms of `Instr` are decoded instructions, and which of them the encoder gives back bit for bit.
Register numbers, immediates and offsets are in range by their types (R71, R77); what is left to check is the word that
TRAP, RES8 and RES13 carry. -/

namespace Sys2Proof

/-- A TRAP, RES8 or RES13 carries a word of its own opcode (R64, R80). -/
def Instr.wf : Instr → Bool
  | .trap iw => fieldOPC iw == Opcode.trap.number
  | .res8 iw => fieldOPC iw == Opcode.res8.number
  | .res13 iw => fieldOPC iw == Opcode.res13.number
  | .addR _ _ _ => true
  | .addI _ _ _ => true
  | .andR _ _ _ => true
  | .andI _ _ _ => true
  | .not _ _ => true
  | .br _ _ _ _ => true
  | .jmp _ => true
  | .jsr _ => true
  | .jsrr _ => true
  | .ld _ _ => true
  | .ldi _ _ => true
  | .ldr _ _ _ => true
  | .lea _ _ => true
  | .st _ _ => true
  | .sti _ _ => true
  | .str _ _ _ => true

end Sys2Proof
end

