-- ==== Sys2Proof/Decode.lean ====
section
/-! DEFINITION. The decoder (`30_encoding.md` R64 to R66) and, after it, the encoder (R75 to R77). Every one of the 65536
words decodes (R64), so the decoder rejects nothing: the two reserved opcodes decode, by name, to RES8 and RES13. -/

namespace Sys2Proof

/-- R64: the total decoder. R65: bit I tells the two forms of ADD and AND apart, bit L those of the subroutine call.
R66: no other bit outside the fields of R60 is looked at. -/
def decode (iw : Word) : Instr :=
  match Opcode.ofNumber (fieldOPC iw) with
  | .br => .br (fieldN iw) (fieldZ iw) (fieldP iw) (fieldOff9 iw)
  | .add =>
    if fieldI iw then .addI (fieldDR iw) (fieldSR1 iw) (fieldImm5 iw)
    else .addR (fieldDR iw) (fieldSR1 iw) (fieldSR2 iw)
  | .ld => .ld (fieldDR iw) (fieldOff9 iw)
  | .st => .st (fieldSR iw) (fieldOff9 iw)
  | .jsr => if fieldL iw then .jsr (fieldOff11 iw) else .jsrr (fieldBaseR iw)
  | .and =>
    if fieldI iw then .andI (fieldDR iw) (fieldSR1 iw) (fieldImm5 iw)
    else .andR (fieldDR iw) (fieldSR1 iw) (fieldSR2 iw)
  | .ldr => .ldr (fieldDR iw) (fieldBaseR iw) (fieldOff6 iw)
  | .str => .str (fieldSR iw) (fieldBaseR iw) (fieldOff6 iw)
  | .res8 => .res8 iw
  | .not => .not (fieldDR iw) (fieldSR1 iw)
  | .ldi => .ldi (fieldDR iw) (fieldOff9 iw)
  | .sti => .sti (fieldSR iw) (fieldOff9 iw)
  | .jmp => .jmp (fieldBaseR iw)
  | .res13 => .res13 iw
  | .lea => .lea (fieldDR iw) (fieldOff9 iw)
  | .trap => .trap iw

/-- R76: every field at its place (R60) under the opcode (R62), with the canonical filler of R75. R76: RES8 and RES13
have no encoding. -/
def encode : Instr → Option Word
  | .addR dr sr1 sr2 => some (place Opcode.add.number 12 ||| place dr 9 ||| place sr1 6 ||| place sr2 0)
  | .addI dr sr1 imm5 =>
    some (place Opcode.add.number 12 ||| place dr 9 ||| place sr1 6 ||| place 1#1 5 ||| place imm5 0)
  | .andR dr sr1 sr2 => some (place Opcode.and.number 12 ||| place dr 9 ||| place sr1 6 ||| place sr2 0)
  | .andI dr sr1 imm5 =>
    some (place Opcode.and.number 12 ||| place dr 9 ||| place sr1 6 ||| place 1#1 5 ||| place imm5 0)
  | .not dr sr1 => some (place Opcode.not.number 12 ||| place dr 9 ||| place sr1 6 ||| place 0b111111#6 0)
  | .br n z p off9 =>
    some (place Opcode.br.number 12 ||| place (BitVec.ofBool n) 11 ||| place (BitVec.ofBool z) 10
      ||| place (BitVec.ofBool p) 9 ||| place off9 0)
  | .jmp baseR => some (place Opcode.jmp.number 12 ||| place baseR 6)
  | .jsr off11 => some (place Opcode.jsr.number 12 ||| place 1#1 11 ||| place off11 0)
  | .jsrr baseR => some (place Opcode.jsr.number 12 ||| place baseR 6)
  | .ld dr off9 => some (place Opcode.ld.number 12 ||| place dr 9 ||| place off9 0)
  | .ldi dr off9 => some (place Opcode.ldi.number 12 ||| place dr 9 ||| place off9 0)
  | .ldr dr baseR off6 => some (place Opcode.ldr.number 12 ||| place dr 9 ||| place baseR 6 ||| place off6 0)
  | .lea dr off9 => some (place Opcode.lea.number 12 ||| place dr 9 ||| place off9 0)
  | .st sr off9 => some (place Opcode.st.number 12 ||| place sr 9 ||| place off9 0)
  | .sti sr off9 => some (place Opcode.sti.number 12 ||| place sr 9 ||| place off9 0)
  | .str sr baseR off6 => some (place Opcode.str.number 12 ||| place sr 9 ||| place baseR 6 ||| place off6 0)
  | .trap iw => some (place Opcode.trap.number 12 ||| place (fieldTrapvect8 iw) 0)
  | .res8 _ => none
  | .res13 _ => none

/-- R78: what decoding an encoded instruction gives: the instruction itself, but for TRAP, whose filler bits 11:8 the
encoder writes as zeros (`90_conflicts.md` C11). -/
def Instr.canonical : Instr → Instr
  | .trap iw => .trap (place Opcode.trap.number 12 ||| place (fieldTrapvect8 iw) 0)
  | .addR dr sr1 sr2 => .addR dr sr1 sr2
  | .addI dr sr1 imm5 => .addI dr sr1 imm5
  | .andR dr sr1 sr2 => .andR dr sr1 sr2
  | .andI dr sr1 imm5 => .andI dr sr1 imm5
  | .not dr sr1 => .not dr sr1
  | .br n z p off9 => .br n z p off9
  | .jmp baseR => .jmp baseR
  | .jsr off11 => .jsr off11
  | .jsrr baseR => .jsrr baseR
  | .ld dr off9 => .ld dr off9
  | .ldi dr off9 => .ldi dr off9
  | .ldr dr baseR off6 => .ldr dr baseR off6
  | .lea dr off9 => .lea dr off9
  | .st sr off9 => .st sr off9
  | .sti sr off9 => .sti sr off9
  | .str sr baseR off6 => .str sr baseR off6
  | .res8 iw => .res8 iw
  | .res13 iw => .res13 iw

/-- R75: a word is canonical if it decodes to a legal form and its filler bits have the values of the table there. -/
def canonicalWord (w : Word) : Bool :=
  match Opcode.ofNumber (fieldOPC w) with
  | .add => fieldI w || field w 3 2 == 0b00#2
  | .and => fieldI w || field w 3 2 == 0b00#2
  | .not => field w 0 6 == 0b111111#6
  | .jmp => field w 9 3 == 0b000#3 && field w 0 6 == 0b000000#6
  | .jsr => fieldL w || (field w 9 2 == 0b00#2 && field w 0 6 == 0b000000#6)
  | .trap => field w 8 4 == 0b0000#4
  | .res8 => false
  | .res13 => false
  | .br => true
  | .ld => true
  | .st => true
  | .ldr => true
  | .str => true
  | .ldi => true
  | .sti => true
  | .lea => true

/-- The instruction word of a table row: its `nbits` bits with zeros above them; one Word is a whole instruction (R50). -/
def tableWord (nbits w : Nat) : Word := BitVec.ofNat 16 (w % 2 ^ nbits)

/-- The instruction the decoder reads from an instruction whose bits are `w`, numbered as `opcode_table.json` numbers
them. Decoding is total (R64), so an instruction is always read. -/
def decodeTableWord (nbits w : Nat) : Option Instr := some (decode (tableWord nbits w))

end Sys2Proof
end

