-- ==== Sys2Proof/Config.lean ====
section
/-! DEFINITION. What the source fixes for every machine (`00_scope.md` R5) and the one behaviour it leaves free for ever
(`00_scope.md` R6: `TRAP_HANDLER`). The other open parameters of R6 are launch parameters (Machine/Launch.lean) and the
driving loop's bound (Machine/Run.lean). The opcode numbers and field positions stand in Machine/OpcodeMap.lean. -/

namespace Sys2Proof

/-- R5, R36: `ORIGIN`, the load address of an assembled image. -/
def Config.origin : Word := 0x3000

/-- R10, R13: the number of the link register R7. -/
def Config.linkReg : Reg := 7

/-- What the trap handler hands back when it returns (R141, R142): "again a machine state in the sense of `10_state.md`"
and a status. The memory part is the list of the handler's writes in their order, so that it can reach any memory
contents (65536 cells) and nothing but memory contents. -/
structure Config.TrapAnswer where
  regs   : Vector Word 8
  pc     : Word
  cond   : Cond
  writes : List (Word × Word)
  status : Status
deriving DecidableEq, Repr, Inhabited

/-- R141, D14: the OPEN parameter `TRAP_HANDLER`, a FREE VALUE: no body, so nothing can be proved of what it answers.
DESIGN CHOICE (log 8). Its arguments are the machine handed to it (R0 to R7, PC, COND and the memory's cells), the
unmodified instruction word, and the number of calls made before, which stands for the external input. -/
opaque Config.trapHandler (regs : Vector Word 8) (pc : Word) (cond : Cond) (mem : List (Nat × Word)) (iw : Word)
    (call : Nat) : Config.TrapAnswer

end Sys2Proof
end

