-- ==== Sys2Proof/Machine/Memory.lean ====
section
/-! DEFINITION. Memory: one space of 65536 cells of one Word each (`20_memory.md` R30, R31), held as a list of
(address, word) pairs in one canonical form. The cell is the spec's Word, not a byte: R30, R33 (log 1). -/

namespace Sys2Proof.Machine

/-- The listed cells, by address. A plain list, so that memories can be compared and written out. -/
abbrev Memory := List (Nat × Word)

/-- What a cell that is not listed reads as. The spec leaves the contents open (`MEM_INIT`, R27, R200): DESIGN CHOICE,
unsafe for a claim that rests on it (log 2). A launch with other contents lists them (Machine/Launch.lean). -/
def Memory.unlisted : Word := 0

/-- The word at address `a`. Total on all addresses (R39), without side effect (R38). -/
def Memory.lookup : Memory → Nat → Word
  | [], _ => Memory.unlisted
  | (b, v) :: rest, a => if a = b then v else Memory.lookup rest a

/-- The list with the entry of address `a` replaced or put in at its place in the order. -/
def Memory.insert : Memory → Nat → Word → Memory
  | [], a, v => [(a, v)]
  | (b, w) :: rest, a, v =>
    if a < b then (a, v) :: (b, w) :: rest
    else if a = b then (a, v) :: rest
    else (b, w) :: Memory.insert rest a v

/-- The list without any entry of address `a`. -/
def Memory.erase : Memory → Nat → Memory
  | [], _ => []
  | (b, w) :: rest, a => if a = b then Memory.erase rest a else (b, w) :: Memory.erase rest a

/-- `read(address) -> word` (R31). -/
def Memory.read (m : Memory) (a : Word) : Word := Memory.lookup m a.toNat

/-- `write(address, word)` (R31): replaces the whole cell `a` and no other. Writing the value an unlisted cell reads as
takes the entry out, which keeps the form canonical. -/
def Memory.write (m : Memory) (a v : Word) : Memory :=
  if v = Memory.unlisted then Memory.erase m a.toNat else Memory.insert m a.toNat v

/-- Writes one after another, the first of the list first. -/
def Memory.writeAll : Memory → List (Word × Word) → Memory
  | m, [] => m
  | m, (a, v) :: rest => Memory.writeAll (Memory.write m a v) rest

/-- Consecutive words from address `a` on, the address wrapping modulo 2^16 (R35). -/
def Memory.writeBlock : Memory → Word → List Word → Memory
  | m, _, [] => m
  | m, a, v :: rest => Memory.writeBlock (Memory.write m a v) (a + 1) rest

/-- The canonical form from address `lo` on: addresses strictly rising and below 65536, and no entry equal to what an
unlisted cell reads as. -/
def Memory.wfFrom : Nat → Memory → Bool
  | _, [] => true
  | lo, (a, v) :: rest => decide (lo ≤ a) && decide (a < 65536) && v != Memory.unlisted && Memory.wfFrom (a + 1) rest

/-- The canonical form: equal memories are equal lists. -/
def Memory.wf (m : Memory) : Bool := Memory.wfFrom 0 m

end Sys2Proof.Machine
end

