-- ==== Sys2Proof/Machine/State.lean ====
section
/-! DEFINITION. The machine's state (`10_state.md`), the reasons a step can stop, and the state after reset. -/

namespace Sys2Proof.Machine

/-- R180, D28: the record of an IllegalOpcode, "the model's, not the machine's": the instruction word and the address it
was fetched from. -/
structure IllegalOpcode where
  word    : Word
  address : Word
deriving DecidableEq, Repr

/-- "machine = (registers, memory, PC, COND)" and the mark `stopped`. `status`, `raised` and `trapCalls` are the model's
own: no instruction can read them (logs 8, 13). -/
structure State where
  /-- R0 to R7 (R11). -/
  regs : Vector Word 8
  /-- PC (R14). -/
  pc : Word
  /-- COND (R16). -/
  cond : Cond
  /-- The memory (R21, R30). -/
  mem : Memory
  /-- R25: set by the first step that returns HALT or ERROR. -/
  stopped : Bool
  /-- R24: the status the latest step returned. -/
  status : Status
  /-- R180, D28: the IllegalOpcode the latest step raised. -/
  raised : Option IllegalOpcode
  /-- How many times the trap handler has been called: the index of its external input (R141, log 8). -/
  trapCalls : Nat
deriving DecidableEq, Repr

/-- Why a step stops without a next state. -/
inductive Fault where
  /-- Raised by `step` on a machine that is already stopped: R25 gives such a step no meaning ("no step", D9, U4).
  Safe: the model says nothing about what would follow (log 12). -/
  | machineStopped
deriving DecidableEq, Repr

/-- Why an instruction has no meaning in the model. -/
inductive Refusal where
  /-- An instruction not modelled yet, by its mnemonic; only an arm of `exec` may answer it, and none does. Safe. -/
  | notModelled (mnemonic : String)
deriving DecidableEq, Repr

/-- The machine right after reset (R27, R200): PC = `ORIGIN`, `stopped` = false. The spec leaves R0 to R7, COND and the
memory open (`GPR_RESET`, `COND_RESET`, `MEM_INIT`): this is the one instance the model names, zero and ZERO (logs 2 to 5;
unsafe for a claim that rests on those values). `State.launch` is reset with the parameters of R200. -/
def State.reset : State where
  regs := #v[0, 0, 0, 0, 0, 0, 0, 0]
  pc := Config.origin
  cond := .zero
  mem := []
  stopped := false
  status := .cont
  raised := none
  trapCalls := 0

/-- What a step or an instruction's meaning answers. -/
abbrev Result := Host.Outcome State Fault Refusal

end Sys2Proof.Machine
end

