-- ==== Sys2Proof/Machine/Flags.lean ====
section
/-! DEFINITION. The one flag computation (`10_state.md` R17) and the one test of the flags (`41_control.md` R110). -/

namespace Sys2Proof.Machine

/-- R17: the condition of a word. The test for zero comes first, since `isPositive 0` holds (R55). -/
def condOf (v : Word) : Cond :=
  if v = 0 then .zero else if isNegative v then .negative else .positive

/-- R17: `setcc(v)`. -/
def State.setcc (s : State) (v : Word) : State := { s with cond := condOf v }

/-- R110: whether a branch with the mask n, z, p is taken under condition `c`. The mask 000 is unconditional. -/
def branchTaken (n z p : Bool) (c : Cond) : Bool :=
  (!n && !z && !p) || (n && c == .negative) || (z && c == .zero) || (p && c == .positive)

end Sys2Proof.Machine
end

