-- ==== Sys2Proof/Machine/Ops.lean ====
section
/-! DEFINITION. The named operations on the machine that every meaning is written in (`00_scope.md` §6): registers,
memory, PC, the exception, the system call, and the stages of a step around `exec`. -/

namespace Sys2Proof.Machine

/-- `x[i]`, `get(register)` (R11). -/
def State.getReg (s : State) (r : Reg) : Word := s.regs[r.toNat]'(r.isLt)

/-- `x[i] <- v`, `set(register, word)` (R11). COND is not touched. -/
def State.setReg (s : State) (r : Reg) (v : Word) : State := { s with regs := s.regs.set r.toNat v r.isLt }

/-- `x[DR] <- v` and then `setcc(v)`: how every flag-updating instruction ends (R18). -/
def State.writeResult (s : State) (dr : Reg) (v : Word) : State := (s.setReg dr v).setcc v

/-- `MemRead(a, 16)` (R31). -/
def State.memRead (s : State) (a : Word) : Word := s.mem.read a

/-- `MemWrite(a, 16, v)` (R31). -/
def State.memWrite (s : State) (a v : Word) : State := { s with mem := s.mem.write a v }

/-- `pc <- target` (R14, R115: every Word is a target). -/
def State.jump (s : State) (target : Word) : State := { s with pc := target }

/-- `x[7] <- pc`: the link of R112 and R113. COND is not touched (R18, C1). -/
def State.link (s : State) : State := s.setReg Config.linkReg s.pc

/-- R180: `raise IllegalOpcode(iw)`. The fetch and the PC increment have happened; no register, COND or memory change;
the status is ERROR and the machine is stopped. There is no entry and no return: nothing is saved and control goes
nowhere (R185, R186). The record names the word and its address, `pc - 1`. -/
def State.raiseIllegalOpcode (s : State) (iw : Word) : State :=
  { s with status := .error, stopped := true, raised := some ⟨iw, s.pc - 1⟩ }

/-- R140 to R143: `(m', s) <- TrapHandler(m, iw)`, called once with the unmodified word. The halt word leaves the machine
as it is and answers HALT (R143, D14; log 10). For every other word the handler's answer is free (log 8): registers,
PC, COND, memory and the status are as it answers. -/
def State.callTrapHandler (s : State) (iw : Word) : State :=
  if iw = wordHalt then { s with status := .halt, trapCalls := s.trapCalls + 1 }
  else
    let a := Config.trapHandler s.regs s.pc s.cond s.mem iw s.trapCalls
    { s with
      regs := a.regs, pc := a.pc, cond := a.cond, mem := s.mem.writeAll a.writes, status := a.status
      trapCalls := s.trapCalls + 1 }

/-- R23, stage 1: the instruction word at PC. -/
def State.fetchWord (s : State) : Word := s.memRead s.pc

/-- R23, stages 2 and 3 ahead of `execute`: the PC is incremented modulo 2^16 (R15) and the status is CONTINUE. -/
def State.advance (s : State) : State := { s with pc := s.pc + 1, status := .cont, raised := none }

/-- R23, last lines: a status other than CONTINUE stops the machine (R25). -/
def State.settle (s : State) : State := { s with stopped := s.stopped || s.status != .cont }

/-- `settle` on the outcome of an instruction. -/
def settleResult : Result → Result
  | .next s => .next s.settle
  | .fault f => .fault f
  | .refused r => .refused r

/-- `s` with the word `w` stored where the next step fetches, and not stopped, so that the next step runs it. -/
def State.withWordAtPc (s : State) (w : Word) : State := { s.memWrite s.pc w with stopped := false }

end Sys2Proof.Machine
end

