-- ==== Sys2Proof/Machine/Operands.lean ====
section
/-! DEFINITION. The operand forms (`30_encoding.md` R70; `42_load.md`, "three addressing modes"). In all of them `pc` is
the incremented PC (`10_state.md` R15), and sums wrap modulo 2^16 (`20_memory.md` R35). -/

namespace Sys2Proof.Machine

/-- The immediate of ADD_I and AND_I: `sext_5(imm5)`. -/
def immediate (imm5 : BitVec 5) : Word := sext imm5

/-- PC-relative: `pc + sext_k(off)`, with k = 9 (BR, LD, LDI, LEA, ST, STI) or 11 (JSR). The 9 bits of LD, LDI, ST and
STI are DEDUCED by the spec (`91_not_in_source.md` N6; log 7). -/
def State.pcRel {k : Nat} (s : State) (off : BitVec k) : Word := s.pc + sext off

/-- PC-relative indirect: the pointer of LDI and STI, read from the cell at `pc + sext_9(off9)`. -/
def State.pointer (s : State) (off9 : BitVec 9) : Word := s.memRead (s.pcRel off9)

/-- Base plus offset: `x[BaseR] + sext_6(off6)` (LDR, STR). -/
def State.baseOff (s : State) (baseR : Reg) (off6 : BitVec 6) : Word := s.getReg baseR + sext off6

end Sys2Proof.Machine
end

