-- ==== Sys2Proof/Machine/Alu.lean ====
section
/-! DEFINITION. Arithmetic and logic (`40_alu.md`). Both sources are read before the destination is written, so DR may
equal a source. -/

namespace Sys2Proof.Machine

/-- R100. -/
def execAddR (dr sr1 sr2 : Reg) (s : State) : Result :=
  .next (s.writeResult dr (s.getReg sr1 + s.getReg sr2))

/-- R101. -/
def execAddI (dr sr1 : Reg) (imm5 : BitVec 5) (s : State) : Result :=
  .next (s.writeResult dr (s.getReg sr1 + immediate imm5))

/-- R102. -/
def execAndR (dr sr1 sr2 : Reg) (s : State) : Result :=
  .next (s.writeResult dr (s.getReg sr1 &&& s.getReg sr2))

/-- R103: the immediate is sign-extended before the AND. -/
def execAndI (dr sr1 : Reg) (imm5 : BitVec 5) (s : State) : Result :=
  .next (s.writeResult dr (s.getReg sr1 &&& immediate imm5))

/-- R104. -/
def execNot (dr sr1 : Reg) (s : State) : Result :=
  .next (s.writeResult dr (~~~ s.getReg sr1))

end Sys2Proof.Machine
end

