-- ==== Sys2Proof/Machine/Control.lean ====
section
/-! DEFINITION. Control transfer (`41_control.md`). No delay slot; COND and memory are not touched. -/

namespace Sys2Proof.Machine

/-- R110. -/
def execBr (n z p : Bool) (off9 : BitVec 9) (s : State) : Result :=
  .next (if branchTaken n z p s.cond then s.jump (s.pcRel off9) else s)

/-- R111. -/
def execJmp (baseR : Reg) (s : State) : Result :=
  .next (s.jump (s.getReg baseR))

/-- R112: the link, then the PC-relative target from the same incremented PC. -/
def execJsr (off11 : BitVec 11) (s : State) : Result :=
  .next (s.link.jump (s.pcRel off11))

/-- R113: the link first; the base is read AFTER it, so that BaseR = 7 falls through to the next instruction. -/
def execJsrr (baseR : Reg) (s : State) : Result :=
  .next (s.link.jump (s.link.getReg baseR))

end Sys2Proof.Machine
end

