-- ==== Sys2Proof/Machine/Load.lean ====
section
/-! DEFINITION. Loads (`42_load.md`). Each writes DR and then COND from the value written; the address is computed before
DR is written. -/

namespace Sys2Proof.Machine

/-- R120. -/
def execLd (dr : Reg) (off9 : BitVec 9) (s : State) : Result :=
  .next (s.writeResult dr (s.memRead (s.pcRel off9)))

/-- R121: exactly one extra dereference; COND from the data. -/
def execLdi (dr : Reg) (off9 : BitVec 9) (s : State) : Result :=
  .next (s.writeResult dr (s.memRead (s.pointer off9)))

/-- R122. -/
def execLdr (dr baseR : Reg) (off6 : BitVec 6) (s : State) : Result :=
  .next (s.writeResult dr (s.memRead (s.baseOff baseR off6)))

/-- R123: no memory read; COND IS set, from the address. -/
def execLea (dr : Reg) (off9 : BitVec 9) (s : State) : Result :=
  .next (s.writeResult dr (s.pcRel off9))

end Sys2Proof.Machine
end

