-- ==== Sys2Proof/Machine/Store.lean ====
section
/-! DEFINITION. Stores (`43_store.md`): no register, PC or COND is written. -/

namespace Sys2Proof.Machine

/-- R130. -/
def execSt (sr : Reg) (off9 : BitVec 9) (s : State) : Result :=
  .next (s.memWrite (s.pcRel off9) (s.getReg sr))

/-- R131: the pointer cell is read, the cell it names is written. -/
def execSti (sr : Reg) (off9 : BitVec 9) (s : State) : Result :=
  .next (s.memWrite (s.pointer off9) (s.getReg sr))

/-- R132. -/
def execStr (sr baseR : Reg) (off6 : BitVec 6) (s : State) : Result :=
  .next (s.memWrite (s.baseOff baseR off6) (s.getReg sr))

end Sys2Proof.Machine
end

