-- ==== Sys2Proof/Machine/System.lean ====
section
/-! DEFINITION. The system call and the two reserved opcodes (`44_system.md`). -/

namespace Sys2Proof.Machine

/-- R140: the engine itself changes nothing; the handler's state and status are taken as they are. No link is written. -/
def execTrap (iw : Word) (s : State) : Result :=
  .next (s.callTrapHandler iw)

/-- R145: always IllegalOpcode; the handler is not called (R147). -/
def execRes8 (iw : Word) (s : State) : Result :=
  .next (s.raiseIllegalOpcode iw)

/-- R146: always IllegalOpcode; the handler is not called (R147). -/
def execRes13 (iw : Word) (s : State) : Result :=
  .next (s.raiseIllegalOpcode iw)

end Sys2Proof.Machine
end

