-- ==== Sys2Proof/Machine/Dispatch.lean ====
section
/-! DEFINITION. `execute(d)` of `10_state.md` R23: the dispatch on the form of the decoded instruction. -/

namespace Sys2Proof.Machine

def exec (i : Instr) (s : State) : Host.Outcome State Fault Refusal :=
  match i with
  | .addR dr sr1 sr2 => Sys2Proof.Machine.execAddR dr sr1 sr2 s
  | .addI dr sr1 imm5 => Sys2Proof.Machine.execAddI dr sr1 imm5 s
  | .andR dr sr1 sr2 => Sys2Proof.Machine.execAndR dr sr1 sr2 s
  | .andI dr sr1 imm5 => Sys2Proof.Machine.execAndI dr sr1 imm5 s
  | .not dr sr1 => Sys2Proof.Machine.execNot dr sr1 s
  | .br n z p off9 => Sys2Proof.Machine.execBr n z p off9 s
  | .jmp baseR => Sys2Proof.Machine.execJmp baseR s
  | .jsr off11 => Sys2Proof.Machine.execJsr off11 s
  | .jsrr baseR => Sys2Proof.Machine.execJsrr baseR s
  | .ld dr off9 => Sys2Proof.Machine.execLd dr off9 s
  | .ldi dr off9 => Sys2Proof.Machine.execLdi dr off9 s
  | .ldr dr baseR off6 => Sys2Proof.Machine.execLdr dr baseR off6 s
  | .lea dr off9 => Sys2Proof.Machine.execLea dr off9 s
  | .st sr off9 => Sys2Proof.Machine.execSt sr off9 s
  | .sti sr off9 => Sys2Proof.Machine.execSti sr off9 s
  | .str sr baseR off6 => Sys2Proof.Machine.execStr sr baseR off6 s
  | .trap iw => Sys2Proof.Machine.execTrap iw s
  | .res8 iw => Sys2Proof.Machine.execRes8 iw s
  | .res13 iw => Sys2Proof.Machine.execRes13 iw s

end Sys2Proof.Machine
end

