-- ==== Sys2Proof/Machine/Step.lean ====
section
/-! DEFINITION. One step of the engine (`10_state.md` R23). -/

namespace Sys2Proof.Machine

/-- R23: fetch, increment, decode, execute, in that order; a status other than CONTINUE stops the machine. A stopped
machine has no step (R25). -/
def step (s : State) : Host.Outcome State Fault Refusal :=
  if s.stopped then .fault .machineStopped
  else settleResult (exec (decode s.fetchWord) s.advance)

/-- `s` with the instruction whose bits are `w` (numbered as `opcode_table.json` numbers them) in the cell at PC. The
step fetches there and nowhere else (R23), and it needs a machine that is not stopped (R25). -/
def State.withFetchWord (s : State) (nbits w : Nat) : State := s.withWordAtPc (tableWord nbits w)

end Sys2Proof.Machine
end

