-- ==== Sys2Proof/Machine/AsmText.lean ====
section
/-! DEFINITION. The assembler's text level (`49_assembler.md` R151 to R153): normalizing a line, label definitions, tokens
and operands. Software, not hardware (`00_scope.md` R3). Text is a list of characters. The model's own choices where the
grammar is silent are in log 18. -/

namespace Sys2Proof.Machine

/-- One line, or one token, of source text. -/
abbrev Text := List Char

/-- R151: space, tab, carriage return, line feed. -/
def isBlank (c : Char) : Bool := c == ' ' || c == '\t' || c == '\r' || c == '\n'

/-- R151: trimmed at both ends. -/
def trim (line : Text) : Text := ((line.dropWhile isBlank).reverse.dropWhile isBlank).reverse

/-- R151: cut at the first `;`, then trimmed. -/
def normalizeLine (line : Text) : Text := trim (line.takeWhile (· != ';'))

/-- What a normalized line is (R153, R154). -/
inductive LineKind where
  /-- Empty or only a comment: skipped by both passes. -/
  | blank
  /-- It ends with the label terminator: the text before it is the label. -/
  | labelDef (name : Text)
  /-- Anything else: one word of the image. -/
  | code (text : Text)
deriving DecidableEq, Repr

/-- R153: a line that ends with the label terminator `:` is a label definition; the label is the text before it, whatever
that text is. -/
def classify (line : Text) : LineKind :=
  match (normalizeLine line).getLast? with
  | none => .blank
  | some c => if c = ':' then .labelDef (normalizeLine line).dropLast else .code (normalizeLine line)

/-- R152: the tokens of a line, separated by blanks. -/
def tokens (line : Text) : List Text := (line.splitOnP isBlank).filter (· != [])

/-- R152: an operand of an instruction line. -/
inductive Operand where
  | reg (r : Reg)
  | lit (v : Int)
  | label (name : Text)
deriving DecidableEq, Repr

/-- Why a line is rejected, or a pass aborts (R156). -/
inductive LineError where
  /-- "cannot match any grammar rule". -/
  | malformed
  /-- Pass 2 finds no symbol. -/
  | unresolvedLabel (name : Text)
  /-- A register token other than `%r0` to `%r7` (D23). -/
  | registerOutOfRange
  /-- A label defined twice (D24). -/
  | duplicateLabel (name : Text)
  /-- A literal or a computed offset that does not fit its field (D25), or a `fill` value outside its range (D26). -/
  | operandOutOfRange
  /-- A label definition and an instruction on one line (D29). -/
  | labelAndInstruction
deriving DecidableEq, Repr

/-- The value of a decimal digit. -/
def digitValue (c : Char) : Nat := c.toNat - '0'.toNat

/-- The value of decimal digits, most significant first. -/
def decimal (ds : Text) : Nat := ds.foldl (fun n c => 10 * n + digitValue c) 0

/-- R152: the part of a register token after `%`: `r` and one digit 0 to 7; another number is out of range. -/
def parseReg : Text → Except LineError Operand
  | 'r' :: ds =>
    if ds = [] ∨ ds.all Char.isDigit = false then .error .malformed
    else if ds.length = 1 ∧ decimal ds < 8 then .ok (.reg (BitVec.ofNat 3 (decimal ds)))
    else .error .registerOutOfRange
  | _ => .error .malformed

/-- R152: the part of a literal after `$`: an optional `-` and decimal digits. -/
def parseLit : Text → Except LineError Operand
  | '-' :: ds => if ds = [] ∨ ds.all Char.isDigit = false then .error .malformed else .ok (.lit (-(decimal ds : Int)))
  | ds => if ds = [] ∨ ds.all Char.isDigit = false then .error .malformed else .ok (.lit (decimal ds))

/-- R152: one operand token, by its leading sigil; a token without one is a label reference. What "an identifier" may
be is open: any such token is one, so that a label R153 defines can be referred to. DESIGN CHOICE (log 18). -/
def parseOperand : Text → Except LineError Operand
  | '%' :: rest => parseReg rest
  | '$' :: rest => parseLit rest
  | t => .ok (.label t)

/-- The operands of a line, the first error first. -/
def parseOperands : List Text → Except LineError (List Operand)
  | [] => .ok []
  | t :: rest =>
    match parseOperand t, parseOperands rest with
    | .error e, _ => .error e
    | .ok _, .error e => .error e
    | .ok o, .ok os => .ok (o :: os)

end Sys2Proof.Machine
end

