-- ==== Sys2Proof/Machine/Image.lean ====
section
/-! DEFINITION. The binary image (`30_encoding.md` R85) and the loader's reading of it (`70_reset_and_hazards.md` R201).
Software around the machine: the byte order exists here and nowhere else (`20_memory.md` R33). -/

namespace Sys2Proof.Machine

/-- R33, R85: a Word "written most-significant-byte-first". -/
def wordBytes (w : Word) : List Byte := [w.extractLsb' 8 8, w.extractLsb' 0 8]

/-- R85: the image of a program: the origin word, then one word per instruction, each as two bytes. -/
def imageBytes (program : List Word) : List Byte := (Config.origin :: program).flatMap wordBytes

/-- R201: why the loader refuses an image (the spec's own cases, D13, U13). An image that is too short is `tooShort`, of
an odd number of bytes `oddLength`, with another first word `wrongOrigin`, longer than `1 + 0xD000` words `tooLong`. -/
inductive LoadError where
  | oddLength
  | tooShort
  | wrongOrigin
  | tooLong
deriving DecidableEq, Repr

/-- R201: the bytes cut into big-endian words; `none` for an odd number of bytes. -/
def wordsOfBytes : List Byte → Option (List Word)
  | [] => some []
  | [_] => none
  | hi :: lo :: rest => (wordsOfBytes rest).map (fun ws => (hi ++ lo) :: ws)

/-- R201: the instruction words of an image, or why it is refused. -/
def parseImage (bytes : List Byte) : Except LoadError (List Word) :=
  match wordsOfBytes bytes with
  | none => .error .oddLength
  | some [] => .error .tooShort
  | some (origin :: program) =>
    if origin ≠ Config.origin then .error .wrongOrigin
    else if 0xD000 < program.length then .error .tooLong
    else .ok program

end Sys2Proof.Machine
end

