-- ==== Sys2Proof/Machine/Assembler.lean ====
section
/-! DEFINITION. The two-pass assembler (`49_assembler.md` R150, R154 to R169). Software, not hardware: it fixes the text
of instructions, how PC-relative offsets are computed, and the image the machine is started from (R3). -/

namespace Sys2Proof.Machine

/-- R157: the mnemonics. A branch carries the mask its suffix sets (R160), a system call its word (R165). -/
inductive Mnemonic where
  | add | and | not
  | br (n z p : Bool)
  | jmp | jsr | jsrr | ld | ldi | lea | st | sti | ldr | str
  | trap (iw : Word)
  | fill
deriving DecidableEq, Repr

/-- R157, R160, R165, R166: the spellings (D20, D22, D26). Lower case only (R152). -/
def mnemonicTable : List (Text × Mnemonic) :=
  [("add".toList, .add), ("and".toList, .and), ("not".toList, .not),
   ("br".toList, .br false false false), ("brn".toList, .br true false false),
   ("brz".toList, .br false true false), ("brp".toList, .br false false true),
   ("brnz".toList, .br true true false), ("brnp".toList, .br true false true),
   ("brzp".toList, .br false true true), ("brnzp".toList, .br true true true)]
  ++ [("jmp".toList, .jmp), ("jsr".toList, .jsr), ("jsrr".toList, .jsrr),
   ("ld".toList, .ld), ("ldi".toList, .ldi), ("lea".toList, .lea), ("st".toList, .st), ("sti".toList, .sti),
   ("ldr".toList, .ldr), ("str".toList, .str)]
  ++ [("getc".toList, .trap wordGetc), ("out".toList, .trap wordOut), ("puts".toList, .trap wordPuts),
   ("in".toList, .trap wordIn), ("putsp".toList, .trap wordPutsp), ("halt".toList, .trap wordHalt),
   ("fill".toList, .fill)]

/-- The mnemonic a token spells. -/
def parseMnemonic (t : Text) : Option Mnemonic := mnemonicTable.lookup t

/-- R169: the symbol table, (label, address) pairs in the order of definition; unbounded (D30). -/
abbrev SymTab := List (Text × Nat)

/-- R155: `offset(target, here) = target - (here + 1)`, in Words. -/
def pcOffset (target here : Nat) : Int := (target : Int) - ((here : Int) + 1)

/-- R155, R158, R160, R164: a signed value in its `k`-bit field, or out of range (D25). -/
def fitField (k : Nat) (v : Int) : Except LineError (BitVec k) :=
  match fieldOfInt? k v with
  | some f => .ok f
  | none => .error .operandOutOfRange

/-- R155: the field of a label operand: resolved, then made relative to the address after the line's own. -/
def labelField (k : Nat) (tab : SymTab) (here : Nat) (name : Text) : Except LineError (BitVec k) :=
  match tab.lookup name with
  | some target => fitField k (pcOffset target here)
  | none => .error (.unresolvedLabel name)

/-- R155: the encoded word of an instruction. -/
def emit (i : Instr) : Except LineError Word :=
  match encode i with
  | some w => .ok w
  | none => .error .malformed

/-- R166, D26: the word of `fill $value`: -32768 to 65535, modulo 65536. -/
def fillWord (v : Int) : Except LineError Word :=
  if -32768 ≤ v ∧ v ≤ 65535 then .ok (BitVec.ofInt 16 v) else .error .operandOutOfRange

/-- R157 to R166: the grammar, one arm a form; anything else is malformed. -/
def assembleOps (tab : SymTab) (here : Nat) : Mnemonic → List Operand → Except LineError Word
  | .add, [.reg d, .reg a, .reg b] => emit (.addR d a b)
  | .add, [.reg d, .reg a, .lit v] => do let f ← fitField 5 v; emit (.addI d a f)
  | .and, [.reg d, .reg a, .reg b] => emit (.andR d a b)
  | .and, [.reg d, .reg a, .lit v] => do let f ← fitField 5 v; emit (.andI d a f)
  | .not, [.reg d, .reg a] => emit (.not d a)
  | .br n z p, [.label l] => do let f ← labelField 9 tab here l; emit (.br n z p f)
  | .br n z p, [.lit v] => do let f ← fitField 9 v; emit (.br n z p f)
  | .jmp, [.reg b] => emit (.jmp b)
  | .jsr, [.label l] => do let f ← labelField 11 tab here l; emit (.jsr f)
  | .jsrr, [.reg b] => emit (.jsrr b)
  | .ld, [.reg d, .label l] => do let f ← labelField 9 tab here l; emit (.ld d f)
  | .ldi, [.reg d, .label l] => do let f ← labelField 9 tab here l; emit (.ldi d f)
  | .lea, [.reg d, .label l] => do let f ← labelField 9 tab here l; emit (.lea d f)
  | .st, [.reg r, .label l] => do let f ← labelField 9 tab here l; emit (.st r f)
  | .sti, [.reg r, .label l] => do let f ← labelField 9 tab here l; emit (.sti r f)
  | .ldr, [.reg d, .reg b, .lit v] => do let f ← fitField 6 v; emit (.ldr d b f)
  | .str, [.reg r, .reg b, .lit v] => do let f ← fitField 6 v; emit (.str r b f)
  | .trap iw, [] => emit (.trap iw)
  | .fill, [.lit v] => fillWord v
  | _, _ => .error .malformed

/-- Whether a token ends with the label terminator: a line that begins with one and goes on carries a label definition
and an instruction, which is refused (R153, D29, C4). -/
def isLabelToken (t : Text) : Bool := t.getLast? == some ':'

/-- R155: the word of one instruction line at address `here`. -/
def assembleLine (tab : SymTab) (here : Nat) (text : Text) : Except LineError Word :=
  match tokens text with
  | [] => .error .malformed
  | t :: rest =>
    if isLabelToken t then .error .labelAndInstruction
    else
      match parseMnemonic t with
      | none => .error .malformed
      | some m => do let ops ← parseOperands rest; assembleOps tab here m ops

/-- R156: an error names its line, counted from 1. -/
structure AsmError where
  line : Nat
  why  : LineError
deriving DecidableEq, Repr

/-- R154: pass 1 from line number `n` and address `here` on, with the symbols found so far. A label definition records the
address and does not advance it; any other line that is not empty advances it by one Word, well-formed or not. The one
refusal is R153's: a label defined twice. -/
def pass1 : Nat → Nat → SymTab → List Text → Except AsmError SymTab
  | _, _, tab, [] => .ok tab
  | n, here, tab, line :: rest =>
    match classify line with
    | .blank => pass1 (n + 1) here tab rest
    | .code _ => pass1 (n + 1) (here + 1) tab rest
    | .labelDef name =>
      match tab.lookup name with
      | none => pass1 (n + 1) here (tab ++ [(name, here)]) rest
      | some _ => .error ⟨n, .duplicateLabel name⟩

/-- R155: pass 2 from line number `n` and address `here` on: the words in source order; the first error aborts it. -/
def pass2 (tab : SymTab) : Nat → Nat → List Text → Except AsmError (List Word)
  | _, _, [] => .ok []
  | n, here, line :: rest =>
    match classify line with
    | .blank => pass2 tab (n + 1) here rest
    | .labelDef _ => pass2 tab (n + 1) here rest
    | .code text =>
      match assembleLine tab here text with
      | .error e => .error ⟨n, e⟩
      | .ok w => do let ws ← pass2 tab (n + 1) (here + 1) rest; return w :: ws

/-- R150, R168: pass 1 over all lines, then pass 2 over all lines; the words of the program, from `ORIGIN` on. -/
def assemble (lines : List Text) : Except AsmError (List Word) := do
  let tab ← pass1 1 Config.origin.toNat [] lines
  pass2 tab 1 Config.origin.toNat lines

/-- R168: the whole driver: source text to image bytes, or an error and no image. -/
def assembleImage (source : Text) : Except AsmError (List Byte) := do
  let program ← assemble (source.splitOn '\n')
  return imageBytes program

end Sys2Proof.Machine
end

