-- ==== Sys2Proof/Machine/Launch.lean ====
section
/-! DEFINITION. Reset with the launch parameters (`70_reset_and_hazards.md` R200; `00_scope.md` R6): the open values of
reset are arguments, so a claim about every launch is a claim for every `GPR_RESET`, `COND_RESET`, `MEM_INIT` and `IMAGE`. -/

namespace Sys2Proof.Machine

/-- R200: `MEM_INIT` is the contents of `memInit`: an address space of 65536 cells, so that every function from address
to Word is the contents of a memory (`Memory.ofFn`). -/
structure LaunchParams where
  /-- `IMAGE` without its origin word: the instruction words in order. -/
  program : List Word
  /-- `MEM_INIT`. -/
  memInit : Memory
  /-- `GPR_RESET`. -/
  gprReset : Vector Word 8
  /-- `COND_RESET`. -/
  condReset : Cond
deriving DecidableEq, Repr

/-- The cells `a, a + 1, …, a + n - 1` of the contents `f`, in canonical form. -/
def Memory.ofFnFrom (f : Nat → Word) : Nat → Nat → Memory
  | _, 0 => []
  | a, n + 1 =>
    if f a = Memory.unlisted then Memory.ofFnFrom f (a + 1) n else (a, f a) :: Memory.ofFnFrom f (a + 1) n

/-- The memory whose contents are `f`. -/
def Memory.ofFn (f : Nat → Word) : Memory := Memory.ofFnFrom f 0 65536

/-- R200: `reset(IMAGE, MEM_INIT, GPR_RESET, COND_RESET)`; the image goes to the cells from `ORIGIN` on (R201). -/
def State.launch (p : LaunchParams) : State where
  regs := p.gprReset
  pc := Config.origin
  cond := p.condReset
  mem := p.memInit.writeBlock Config.origin p.program
  stopped := false
  status := .cont
  raised := none
  trapCalls := 0

/-- R201 and R200: the loader reads the image's bytes and, unless it refuses them, the machine is reset with them. -/
def boot (image : List Byte) (memInit : Memory) (gprReset : Vector Word 8) (condReset : Cond) :
    Except LoadError State :=
  match parseImage image with
  | .ok program => .ok (State.launch ⟨program, memInit, gprReset, condReset⟩)
  | .error e => .error e

end Sys2Proof.Machine
end

