-- ==== Sys2Proof/Machine/Run.lean ====
section
/-! DEFINITION. A run (`10_state.md` R26, `70_reset_and_hazards.md` R203, R204): the driving loop, which is the host's and
not part of the core, with its open step limit `FUEL` (D31). -/

namespace Sys2Proof.Machine

/-- R26: "while step(m) = CONTINUE do nothing", for at most `fuel` steps. The loop ends at the first status other than
CONTINUE, that is, when the machine is stopped; when the fuel runs out first, the state reached is answered as it is, and
says nothing of the program (D31, U16). -/
def drive : Nat → State → Result
  | 0, s => .next s
  | fuel + 1, s =>
    if s.stopped then .next s
    else
      match step s with
      | .next t => drive fuel t
      | .fault f => .fault f
      | .refused r => .refused r

/-- R204: the run ended normally. -/
def State.endedNormally (s : State) : Bool := s.stopped && s.status == .halt

/-- R204: the run ended in error. -/
def State.endedInError (s : State) : Bool := s.stopped && s.status == .error

end Sys2Proof.Machine
end

