-- ==== Sys2Proof/Safety.lean ====
section
/-! DEFINITION. The terms claims are made in: the invariant of the machine, the frames of instructions, and what counts as
a safe run. -/

namespace Sys2Proof.Machine

/-- The machine's invariant: the memory is in canonical form; the machine is stopped exactly if the latest status is not
CONTINUE (R25); an IllegalOpcode has been raised only with status ERROR (R180). -/
def State.Inv (s : State) : Prop :=
  s.mem.wf = true ∧ (s.stopped = true ↔ s.status ≠ .cont) ∧ (s.raised ≠ none → s.status = .error)

/-- R17 without the order of its tests: `c` is the condition of `v`. -/
def IsCondOf (v : Word) (c : Cond) : Prop :=
  (c = .zero ↔ v = 0) ∧ (c = .negative ↔ v ≥ 0x8000) ∧ (c = .positive ↔ 0 < v ∧ v < 0x8000)

/-- Every general register but `r` is the same. -/
def RegsSameBut (r : Reg) (s t : State) : Prop := ∀ q : Reg, q ≠ r → t.getReg q = s.getReg q

/-- Every general register is the same. -/
def RegsSame (s t : State) : Prop := ∀ q : Reg, t.getReg q = s.getReg q

/-- Every cell but `a` reads the same. -/
def MemSameBut (a : Word) (s t : State) : Prop := ∀ b : Word, b ≠ a → t.memRead b = s.memRead b

/-- Every cell reads the same. -/
def MemSame (s t : State) : Prop := ∀ b : Word, t.memRead b = s.memRead b

/-- The stop mark, the status and the model's own fields are the same. -/
def MarksSame (s t : State) : Prop :=
  t.stopped = s.stopped ∧ t.status = s.status ∧ t.raised = s.raised ∧ t.trapCalls = s.trapCalls

/-- How a flag-updating instruction runs (R18): it completes in every state, DR holds `v`, COND is the condition of `v`,
and nothing else changes. -/
def WritesResult (i : Instr) (dr : Reg) (v : State → Word) : Prop :=
  ∀ s, ∃ t, exec i s = .next t ∧ t.getReg dr = v s ∧ IsCondOf (v s) t.cond ∧ RegsSameBut dr s t ∧ t.pc = s.pc ∧
    MemSame s t ∧ MarksSame s t

/-- How a store runs: it completes in every state, the cell `addr` holds `v`, and nothing else changes. -/
def Stores (i : Instr) (addr v : State → Word) : Prop :=
  ∀ s, ∃ t, exec i s = .next t ∧ t.memRead (addr s) = v s ∧ MemSameBut (addr s) s t ∧ RegsSame s t ∧ t.pc = s.pc ∧
    t.cond = s.cond ∧ MarksSame s t

/-- How a control transfer without a link runs: it completes in every state, PC is `target`, and nothing else changes. -/
def Jumps (i : Instr) (target : State → Word) : Prop :=
  ∀ s, ∃ t, exec i s = .next t ∧ t.pc = target s ∧ RegsSame s t ∧ t.cond = s.cond ∧ MemSame s t ∧ MarksSame s t

/-- How a subroutine call runs: it completes in every state, R7 holds the incremented PC, PC is `target`, and nothing else
changes, COND included (R18). -/
def Calls (i : Instr) (target : State → Word) : Prop :=
  ∀ s, ∃ t, exec i s = .next t ∧ t.getReg 7 = s.pc ∧ t.pc = target s ∧ RegsSameBut 7 s t ∧ t.cond = s.cond ∧
    MemSame s t ∧ MarksSame s t

/-- How a reserved opcode runs (R180): status ERROR, stopped, the record of the word and its address, nothing else. -/
def Raises (i : Instr) (iw : Word) : Prop :=
  ∀ s, ∃ t, exec i s = .next t ∧ t.status = .error ∧ t.stopped = true ∧ t.raised = some ⟨iw, s.pc - 1⟩ ∧
    t.trapCalls = s.trapCalls ∧ RegsSame s t ∧ t.pc = s.pc ∧ t.cond = s.cond ∧ MemSame s t

/-- R12: the register named in the field DR of the nine flag-updating forms (R18); no other form has one. -/
def destination : Instr → Option Reg
  | .addR dr _ _ => some dr
  | .addI dr _ _ => some dr
  | .andR dr _ _ => some dr
  | .andI dr _ _ => some dr
  | .not dr _ => some dr
  | .ld dr _ => some dr
  | .ldi dr _ => some dr
  | .ldr dr _ _ => some dr
  | .lea dr _ => some dr
  | .br _ _ _ _ => none
  | .jmp _ => none
  | .jsr _ => none
  | .jsrr _ => none
  | .st _ _ => none
  | .sti _ _ => none
  | .str _ _ _ => none
  | .trap _ => none
  | .res8 _ => none
  | .res13 _ => none

/-- R41: the cell a store writes, computed in the state in which the instruction is executed, with the expressions the
meanings use; no other form stores. -/
def storeAddress (s : State) : Instr → Option Word
  | .st _ off9 => some (s.pcRel off9)
  | .sti _ off9 => some (s.pointer off9)
  | .str _ baseR off6 => some (s.baseOff baseR off6)
  | .addR _ _ _ => none
  | .addI _ _ _ => none
  | .andR _ _ _ => none
  | .andI _ _ _ => none
  | .not _ _ => none
  | .br _ _ _ _ => none
  | .jmp _ => none
  | .jsr _ => none
  | .jsrr _ => none
  | .ld _ _ => none
  | .ldi _ _ => none
  | .ldr _ _ _ => none
  | .lea _ _ => none
  | .trap _ => none
  | .res8 _ => none
  | .res13 _ => none

/-- The encoder has a word for `i`, and the word is the row of a format (`30_encoding.md` R61): a list of slices, each its
lowest bit, its width and its value. -/
def EncodesAs (i : Instr) (format : List (Nat × Nat × Nat)) : Prop :=
  ∃ w, encode i = some w ∧ ∀ slice ∈ format, (w.extractLsb' slice.1 slice.2.1).toNat = slice.2.2

/-- R110: the mask and the condition under which a branch is taken. -/
def Taken (n z p : Bool) (c : Cond) : Prop :=
  (n = false ∧ z = false ∧ p = false) ∨ (n = true ∧ c = .negative) ∨ (z = true ∧ c = .zero) ∨
    (p = true ∧ c = .positive)

/-- The assembler turns the mnemonic with these operands into the instruction, wherever the line stands. -/
def Spells (mnemonic : String) (ops : List Operand) (i : Instr) : Prop :=
  ∀ tab here, ∃ m, parseMnemonic mnemonic.toList = some m ∧ assembleOps tab here m ops = emit i

/-- The same for a literal operand, which is the signed value of a `k`-bit field; out of range it is refused. -/
def SpellsLit (mnemonic : String) (k : Nat) (ops : Int → List Operand) (i : BitVec k → Instr) : Prop :=
  ∀ tab here v, ∃ m, parseMnemonic mnemonic.toList = some m ∧
    (∀ f : BitVec k, f.toInt = v → assembleOps tab here m (ops v) = emit (i f)) ∧
    ((∀ f : BitVec k, f.toInt ≠ v) → assembleOps tab here m (ops v) = .error .operandOutOfRange)

/-- The same for a label operand (R155): the field is the label's address less the address after the line's own; an
unknown label, or an offset that does not fit, is refused. -/
def SpellsLabel (mnemonic : String) (k : Nat) (ops : Text → List Operand) (i : BitVec k → Instr) : Prop :=
  ∀ tab here l, ∃ m, parseMnemonic mnemonic.toList = some m ∧
    (tab.lookup l = none → assembleOps tab here m (ops l) = .error (.unresolvedLabel l)) ∧
    ∀ target, tab.lookup l = some target →
      (∀ f : BitVec k, f.toInt = (target : Int) - (here + 1) → assembleOps tab here m (ops l) = emit (i f)) ∧
      ((∀ f : BitVec k, f.toInt ≠ (target : Int) - (here + 1)) →
        assembleOps tab here m (ops l) = .error .operandOutOfRange)

/-- R160: `br` and the letters of the mask bits that are set, in the order n, z, p. -/
def branchSpelling (n z p : Bool) : String :=
  "br" ++ (if n then "n" else "") ++ (if z then "z" else "") ++ (if p then "p" else "")

/-- The label a line defines, if it is a label definition (R153). -/
def labelDefined (line : Text) : Option Text :=
  match classify line with
  | .labelDef name => some name
  | .blank => none
  | .code _ => none

/-- A safe run: however long it is driven from `s`, no IllegalOpcode is raised ("never reachable from a correctly
assembled program", `44_system.md`). -/
def SafeFrom (s : State) : Prop := ∀ fuel t, drive fuel s = .next t → t.raised = none

end Sys2Proof.Machine
end

