-- ==== Sys2Proof/Certificates/Slice0/Obligations.lean ====
section
/-! DEFINITION. The statements for the provers. Each docstring names the rule of spec/ it formalises, or says that it is
derived and from what. `exec i s` runs in a state whose PC is already incremented (`10_state.md` R23). -/

open Sys2Proof Sys2Proof.Machine

/-! ### The step -/

/-- Derived from `10_state.md` R23 and R15: fetch the word at PC, increment PC, decode, execute; a status other than CONTINUE
stops the machine. (`status` and `raised` are the model's own fields, log 13.) -/
def Obligations.StepRunsDecodedInstruction : Prop :=
  ∀ s : State, s.stopped = false →
    step s =
      match exec (decode (s.memRead s.pc)) { s with pc := s.pc + 1, status := .cont, raised := none } with
      | .next t => .next { t with stopped := t.stopped || decide (t.status ≠ .cont) }
      | .fault f => .fault f
      | .refused r => .refused r

/-- Derived from `10_state.md` R25 and R27: a machine is stopped by a step exactly if its status is not CONTINUE, it is not
stopped at reset, and a stopped machine takes no step. That the missing step is a named fault is the model's choice
(log 12). -/
def Obligations.StoppedMachineTakesNoStep : Prop :=
  (∀ s, s.stopped = true → step s = .fault .machineStopped) ∧
  (∀ s t, step s = .next t → (t.stopped = true ↔ t.status ≠ .cont)) ∧
  (∀ p, (State.launch p).stopped = false) ∧ State.reset.stopped = false

/-- Derived from `60_exceptions.md` R181, R184 and `20_memory.md` R39: nothing but being stopped keeps a step from a next
state, whatever the fetched word, the registers and the memory are. The model's choices it rests on: a reserved opcode is
a NEXT state that is stopped (log 11); the trap handler always returns, without which a TRAP step need not complete
(log 9, unsafe). -/
def Obligations.EveryRunningStepCompletes : Prop :=
  ∀ s : State, s.stopped = false → ∃ t, step s = .next t

/-- Derived from `10_state.md` R24 and `60_exceptions.md` R182: the status after a step is CONTINUE for every word but
those of TRAP and the reserved opcodes, ERROR for the reserved ones, and the handler's for TRAP. (A reserved word as a next
state is log 11, the field `status` log 13.) -/
def Obligations.StatusOfEveryStep : Prop :=
  ∀ s t : State, step s = .next t →
    ((decode s.fetchWord).opcode ≠ .trap ∧ (decode s.fetchWord).legal = true → t.status = .cont ∧ t.stopped = false) ∧
    ((decode s.fetchWord).legal = false → t.status = .error ∧ t.stopped = true) ∧
    ((decode s.fetchWord).opcode = .trap → t.status = (s.advance.callTrapHandler s.fetchWord).status)

/-- Derived from `20_memory.md` R45 and R41, `70_reset_and_hazards.md` R208: after a store whose cell is the next one
fetched, the next step executes the word stored. -/
def Obligations.StoreIsSeenByTheNextFetch : Prop :=
  ∀ (s t : State) (sr baseR : Reg) (off9 : BitVec 9) (off6 : BitVec 6), step s = .next t →
    (decode s.fetchWord = .st sr off9 → s.advance.pcRel off9 = t.pc → t.fetchWord = s.getReg sr) ∧
    (decode s.fetchWord = .sti sr off9 → s.advance.pointer off9 = t.pc → t.fetchWord = s.getReg sr) ∧
    (decode s.fetchWord = .str sr baseR off6 → s.advance.baseOff baseR off6 = t.pc → t.fetchWord = s.getReg sr)

/-! ### Invariants and whole-machine rules -/

/-- Derived from `10_state.md` R22, R25, `20_memory.md` R31 and `60_exceptions.md` R180: every step keeps the invariant:
memory in canonical form, stopped exactly if the status is not CONTINUE, an IllegalOpcode only with status ERROR. -/
def Obligations.StepKeepsInvariant : Prop :=
  ∀ s t : State, s.Inv → step s = .next t → t.Inv

/-- Derived from `70_reset_and_hazards.md` R200: the invariant holds at reset, and at every launch whose `MEM_INIT` is in
canonical form. -/
def Obligations.InvariantHoldsAtLaunch : Prop :=
  State.reset.Inv ∧ ∀ p : LaunchParams, p.memInit.wf = true → (State.launch p).Inv

/-- Derived from `10_state.md` R26 and `60_exceptions.md` R181: however long a run is driven, the model answers a state and
never `fault` or `refused`; it keeps the invariant; and it ends exactly where the machine is stopped: a longer run of a
stopped machine is the same, and one that is not stopped is so many steps of the machine. The model's choices it rests on:
a reserved opcode is a NEXT state that is stopped, where R23 and `93_implementation_defined.md` U5 speak of a fault (log
11); the handler always returns (log 9); the invariant's memory form and its fields `status` and `raised` are the model's
own (logs 1, 13). -/
def Obligations.EveryRunIsSound : Prop :=
  ∀ (fuel : Nat) (s : State), ∃ t, drive fuel s = .next t ∧ (s.Inv → t.Inv) ∧
    (t.stopped = true → ∀ more, drive (fuel + more) s = .next t) ∧
    (t.stopped = false → Sys2Proof.core.run fuel s = .next t)

/-- Derived from `10_state.md` R18 and `44_system.md` R142, R143: the flag-updating forms are those of ADD, AND, NOT, LD,
LDI, LDR and LEA; each sets COND from the value left in its destination register; no other form changes COND. The
engine's part of TRAP does not either: after any service but halt COND is what the handler left, a free value (the
model's choice, log 8); that the halt service leaves it as before is a decision of the spec (R143, D14), taken for the
word 0xF025 alone (log 10). -/
def Obligations.OnlyFlagUpdatingInstructionsChangeCond : Prop :=
  ∀ (i : Instr) (s t : State), exec i s = .next t →
    (destination i ≠ none ↔ i.opcode ∈ [.add, .and, .not, .ld, .ldi, .ldr, .lea]) ∧
    (∀ dr, destination i = some dr → IsCondOf (t.getReg dr) t.cond) ∧
    (destination i = none → i.opcode ≠ .trap → t.cond = s.cond) ∧
    (i = .trap 0xF025 → t.cond = s.cond) ∧
    (∀ iw, i = .trap iw → iw ≠ 0xF025 →
      t.cond = (Config.trapHandler s.regs s.pc s.cond s.mem iw s.trapCalls).cond)

/-- Derived from `10_state.md` R12 and R13: a register changes only as the destination of a flag-updating form, as R7 of a
subroutine call, or by the trap handler. -/
def Obligations.RegistersChangeOnlyAsNamed : Prop :=
  ∀ (i : Instr) (s t : State) (r : Reg), exec i s = .next t → t.getReg r ≠ s.getReg r →
    destination i = some r ∨ (r = 7 ∧ i.opcode = .jsr) ∨ (i.opcode = .trap ∧ i ≠ .trap 0xF025)

/-- Derived from `20_memory.md` R41 and `10_state.md` R22: a cell changes in a step only as the one cell a store computes,
or by the trap handler. -/
def Obligations.CellsChangeOnlyByStoresAndHandler : Prop :=
  ∀ (s t : State) (a : Word), step s = .next t → t.memRead a ≠ s.memRead a →
    storeAddress s.advance (decode s.fetchWord) = some a ∨ (decode s.fetchWord).opcode = .trap

/-- Derived from `10_state.md` R19: COND is read by BR alone. Every other form but TRAP, whose handler is handed COND,
does the same whatever COND is, up to COND itself; and BR does read it. That the two reserved opcodes answer a next state
too is the model's choice (log 11). -/
def Obligations.CondIsReadOnlyByBranch : Prop :=
  (∀ (i : Instr) (s : State) (c : Cond), i.opcode ≠ .br → i.opcode ≠ .trap →
    ∃ t, exec i s = .next t ∧
      exec i { s with cond := c } = .next (if destination i = none then { t with cond := c } else t)) ∧
  (∀ s : State, ∃ t u, exec (.br true false false 1) { s with cond := .negative } = .next t ∧
    exec (.br true false false 1) { s with cond := .zero } = .next u ∧ t.pc ≠ u.pc)

/-- Derived from `44_system.md` R141, R147 and `60_exceptions.md` R183: TRAP calls the handler once; no other form, the
reserved ones included, calls it. (The counter of calls is the model's own, log 8.) -/
def Obligations.HandlerIsCalledOnlyByTrap : Prop :=
  ∀ (i : Instr) (s t : State), exec i s = .next t →
    t.trapCalls = s.trapCalls + (if i.opcode = .trap then 1 else 0)

/-- Derived from `60_exceptions.md` R180 and `30_encoding.md` R80 at the level of a step: a word of opcode 8 or 13 stops the
machine with status ERROR, PC one past the word, everything else as before. That this is a next state, and the record of
word and address, are the model's choices (logs 11, 13). That the stopped machine takes no further step is R25; that the
missing step is the fault `machineStopped` is the model's choice (log 12). -/
def Obligations.ReservedWordStopsTheMachine : Prop :=
  ∀ s : State, s.stopped = false →
    (s.memRead s.pc).extractLsb' 12 4 = 8#4 ∨ (s.memRead s.pc).extractLsb' 12 4 = 13#4 →
    ∃ t, step s = .next t ∧ t.status = .error ∧ t.stopped = true ∧ t.pc = s.pc + 1 ∧
      t.raised = some ⟨s.memRead s.pc, s.pc⟩ ∧ RegsSame s t ∧ t.cond = s.cond ∧ MemSame s t ∧
      t.trapCalls = s.trapCalls ∧ step t = .fault .machineStopped

/-! ### State: registers, flags, memory, reset -/

/-- `10_state.md` R11: each register holds the word most recently set, or its reset value, independently of the other
registers; reading answers a word and no state, so it has no effect. -/
def Obligations.RegisterReadsLastWrite : Prop :=
  (∀ (s : State) (r q : Reg) (v : Word),
    (s.setReg r v).getReg r = v ∧ (q ≠ r → (s.setReg r v).getReg q = s.getReg q) ∧
    (s.setReg r v).pc = s.pc ∧ (s.setReg r v).cond = s.cond ∧ MemSame s (s.setReg r v)) ∧
  ∀ (p : LaunchParams) (r : Reg), (State.launch p).getReg r = p.gprReset[r.toNat]'(r.isLt)

/-- `10_state.md` R17: ZERO for 0, NEGATIVE for 0x8000 to 0xFFFF, POSITIVE for 0x0001 to 0x7FFF; nothing else is written. -/
def Obligations.ConditionRule : Prop :=
  ∀ (s : State) (v : Word),
    (v = 0 → (s.setcc v).cond = .zero) ∧ (0x8000 ≤ v → (s.setcc v).cond = .negative) ∧
    (0x0001 ≤ v → v ≤ 0x7FFF → (s.setcc v).cond = .positive) ∧
    RegsSame s (s.setcc v) ∧ (s.setcc v).pc = s.pc ∧ MemSame s (s.setcc v)

/-- Derived from `20_memory.md` R31, R34, R39: a read gives the word most recently written to the cell, at every address;
a write changes no other cell and nothing but memory; and writing keeps the canonical form, in which equal contents
are equal memories. -/
def Obligations.MemoryReadsLastWrite : Prop :=
  (∀ (s : State) (a v b : Word),
    (s.memWrite a v).memRead a = v ∧ (b ≠ a → (s.memWrite a v).memRead b = s.memRead b) ∧
    RegsSame s (s.memWrite a v) ∧ (s.memWrite a v).pc = s.pc ∧ (s.memWrite a v).cond = s.cond) ∧
  (∀ (m : Memory) (a v : Word), m.wf = true → (m.write a v).wf = true) ∧
  (∀ m m' : Memory, m.wf = true → m'.wf = true → (∀ a : Word, m.read a = m'.read a) → m = m')

/-- Derived from `70_reset_and_hazards.md` R200, with the loading of R201, for every value of the launch parameters: R0 to
R7 and COND are `GPR_RESET` and `COND_RESET`, the cells from 0x3000 on hold the image, every other cell `MEM_INIT`. That PC
is 0x3000 is PRESUMED: the spec's own decision D10, not the source's (log 5). -/
def Obligations.LaunchState : Prop :=
  ∀ p : LaunchParams, p.program.length ≤ 0xD000 →
    (State.launch p).pc = 0x3000 ∧ (State.launch p).stopped = false ∧ (State.launch p).cond = p.condReset ∧
    (∀ r : Reg, (State.launch p).getReg r = p.gprReset[r.toNat]'(r.isLt)) ∧
    (∀ (i : Nat) (h : i < p.program.length),
      (State.launch p).memRead (0x3000 + BitVec.ofNat 16 i) = p.program[i]) ∧
    (∀ a : Word, (a < 0x3000 ∨ 0x3000 + p.program.length ≤ a.toNat) → (State.launch p).memRead a = p.memInit.read a)

/-- Derived from `00_scope.md` R6 and `10_state.md` R27 (`MEM_INIT : Address -> Word`, any Word each): every contents of the
65536 cells is the contents of a memory in canonical form, so a claim over all memories is a claim over all `MEM_INIT`. -/
def Obligations.EveryMemInitIsAMemory : Prop :=
  ∀ f : Word → Word, ∃ m : Memory, m.wf = true ∧ ∀ a : Word, m.read a = f a

/-! ### The codec -/

/-- Derived from `30_encoding.md` R52 and R56: the reading utilities on their preconditions, where they read what the
decoder's fields read, and their refusal outside (the model's choice, log 16). -/
def Obligations.BitReadersAgreeWithFields : Prop :=
  ∀ (w : Word) (n k : Nat),
    (n ≤ 15 → getBit? w n = some (if w.getLsbD n then 1 else 0)) ∧ (15 < n → getBit? w n = none) ∧
    (n + k ≤ 16 → k ≠ 0 → getBits? w n k = some (w.extractLsb' n k).toNat) ∧
    (16 < n + k ∨ k = 0 → getBits? w n k = none)

/-- Derived from `30_encoding.md` R53 and R56: setting and clearing a bit force that bit and no other, and are idempotent. -/
def Obligations.BitWritersForceOneBit : Prop :=
  ∀ (w : Word) (n m : Nat),
    (n ≤ 15 → ∃ v, setBit? w n = some v ∧ v.getLsbD n = true ∧ (m ≠ n → v.getLsbD m = w.getLsbD m) ∧
      setBit? v n = some v) ∧
    (n ≤ 15 → ∃ v, clearBit? w n = some v ∧ v.getLsbD n = false ∧ (m ≠ n → v.getLsbD m = w.getLsbD m) ∧
      clearBit? v n = some v) ∧
    (15 < n → setBit? w n = none ∧ clearBit? w n = none)

/-- Derived from `30_encoding.md` R54, R55, R70: `sign_extend` on 1 to 16 bits is the two's-complement widening the engine
applies to its fields, refused outside; and the sign tests are complementary, 0 being positive. -/
def Obligations.SignUtilities : Prop :=
  (∀ (w : Word) (k : Nat), 1 ≤ k → k ≤ 16 → signExtend? w k = some (sext (w.extractLsb' 0 k))) ∧
  (∀ (w : Word) (k : Nat), k = 0 ∨ 16 < k → signExtend? w k = none) ∧
  (∀ (k : Nat) (f : BitVec k), k ≤ 16 → (sext f).toInt = f.toInt) ∧
  (∀ w : Word, (isNegative w = true ↔ 0x8000 ≤ w) ∧ (isPositive w = true ↔ w ≤ 0x7FFF))

/-- Derived from `30_encoding.md` R76 (last paragraph) and R77: an operand within its field's range becomes the field of
that value, one outside is refused, not truncated. -/
def Obligations.OperandRangesAreChecked : Prop :=
  ∀ k : Nat, 0 < k →
    (∀ (v : Int) (f : BitVec k), fieldOfInt? k v = some f ↔ f.toInt = v) ∧
    (∀ v : Int, fieldOfInt? k v = none ↔ v < -(2 ^ (k - 1) : Int) ∨ (2 ^ (k - 1) : Int) ≤ v) ∧
    (∀ (v : Nat) (f : BitVec k), fieldOfNat? k v = some f ↔ f.toNat = v) ∧
    (∀ v : Nat, fieldOfNat? k v = none ↔ 2 ^ k ≤ v)

/-- Words written out from the formats of `30_encoding.md` R61, one of each family, decode to what they stand for. Derived
from R61 and R62. -/
def Obligations.WrittenOutWordsDecode : Prop :=
  decode 0b0001001010000011 = .addR 1 2 3 ∧ decode 0b0001001010111111 = .addI 1 2 0b11111 ∧
  decode 0b0000010000000011 = .br false true false 3 ∧ decode 0b0100100000001111 = .jsr 15 ∧
  decode 0b0010010000000010 = .ld 2 2 ∧ decode 0b0111001010111111 = .str 1 2 0b111111 ∧
  decode 0b1111000000100101 = .trap 0xF025 ∧ decode 0b1000000000000000 = .res8 0x8000

/-- `30_encoding.md` R78, round-trip law 1: for every legal well-formed instruction, decoding its encoding gives it back,
TRAP with the canonical filler. -/
def Obligations.DecodeEncodeRoundTrip : Prop :=
  ∀ i : Instr, i.wf = true → i.legal = true →
    ∃ w, encode i = some w ∧ decode w = i.canonical ∧
      (∀ iw, i = .trap iw → i.canonical = .trap (0xF000 ||| (iw.extractLsb' 0 8).setWidth 16)) ∧
      (i.opcode ≠ .trap → i.canonical = i)

/-- Derived from `30_encoding.md` R79, round-trip law 2 (without its counts): encoding what a canonical word decodes to gives
the word back; for a word with a legal opcode it gives a canonical word of the same form and operands; for a reserved
one there is none. -/
def Obligations.EncodeDecodeRoundTrip : Prop :=
  ∀ w : Word,
    (canonicalWord w = true → encode (decode w) = some w) ∧
    ((decode w).legal = true → ∃ v, encode (decode w) = some v ∧ canonicalWord v = true ∧
      decode v = (decode w).canonical) ∧
    ((decode w).legal = false → encode (decode w) = none)

/-- Derived from `30_encoding.md` R80, `60_exceptions.md` R180 and `44_system.md` R145, R146: the illegal words are 0x8000 to 0x8FFF and 0xD000 to 0xDFFF, they decode, and dispatched they stop
the machine; every other word is a legal instruction. That the stop is a next state, and the record left behind, are the
model's choices (logs 11, 13). -/
def Obligations.IllegalWordsAreTheReservedOpcodes : Prop :=
  ∀ w : Word,
    ((decode w).legal = false ↔ (0x8000 ≤ w ∧ w ≤ 0x8FFF) ∨ (0xD000 ≤ w ∧ w ≤ 0xDFFF)) ∧
    ((decode w).legal = false → Raises (decode w) w) ∧
    (decode w).wf = true

/-- Derived from `30_encoding.md` R66: two words that differ only in filler bits decode to the same form and operands (a
TRAP word is handed to the handler whole). That filler is ignored is the spec's own decision D6 (log 17), and which bits
are filler follows the presumed field positions (log 6). -/
def Obligations.FillerBitsAreIgnored : Prop :=
  ∀ v w : Word,
    ((v.extractLsb' 12 4 = 1#4 ∨ v.extractLsb' 12 4 = 5#4) → v.getLsbD 5 = false →
      v &&& 0xFFE7 = w &&& 0xFFE7 → decode v = decode w) ∧
    (v.extractLsb' 12 4 = 9#4 → v &&& 0xFFC0 = w &&& 0xFFC0 → decode v = decode w) ∧
    (v.extractLsb' 12 4 = 12#4 → v &&& 0xF1C0 = w &&& 0xF1C0 → decode v = decode w) ∧
    (v.extractLsb' 12 4 = 4#4 → v.getLsbD 11 = false → v &&& 0xF9C0 = w &&& 0xF9C0 → decode v = decode w) ∧
    (v.extractLsb' 12 4 = 15#4 → v &&& 0xF0FF = w &&& 0xF0FF → (decode v).canonical = (decode w).canonical)

/-! ### Arithmetic and logic: encoding, text and effect of each form -/

/-- `40_alu.md` R100. -/
def Obligations.AddRegisterForm : Prop :=
  (∀ iw : Word, iw.extractLsb' 12 4 = 1#4 → iw.getLsbD 5 = false →
    decode iw = .addR (iw.extractLsb' 9 3) (iw.extractLsb' 6 3) (iw.extractLsb' 0 3)) ∧
  ∀ dr sr1 sr2 : Reg,
    EncodesAs (.addR dr sr1 sr2)
      [(12, 4, 0b0001), (9, 3, dr.toNat), (6, 3, sr1.toNat), (5, 1, 0), (3, 2, 0b00), (0, 3, sr2.toNat)] ∧
    Spells "add" [.reg dr, .reg sr1, .reg sr2] (.addR dr sr1 sr2) ∧
    WritesResult (.addR dr sr1 sr2) dr (fun s => s.getReg sr1 + s.getReg sr2)

/-- `40_alu.md` R101. -/
def Obligations.AddImmediateForm : Prop :=
  (∀ iw : Word, iw.extractLsb' 12 4 = 1#4 → iw.getLsbD 5 = true →
    decode iw = .addI (iw.extractLsb' 9 3) (iw.extractLsb' 6 3) (iw.extractLsb' 0 5)) ∧
  ∀ (dr sr1 : Reg),
    SpellsLit "add" 5 (fun v => [.reg dr, .reg sr1, .lit v]) (.addI dr sr1) ∧
    ∀ imm5 : BitVec 5,
      EncodesAs (.addI dr sr1 imm5)
        [(12, 4, 0b0001), (9, 3, dr.toNat), (6, 3, sr1.toNat), (5, 1, 1), (0, 5, imm5.toNat)] ∧
      WritesResult (.addI dr sr1 imm5) dr (fun s => s.getReg sr1 + BitVec.ofInt 16 imm5.toInt)

/-- `40_alu.md` R102. -/
def Obligations.AndRegisterForm : Prop :=
  (∀ iw : Word, iw.extractLsb' 12 4 = 5#4 → iw.getLsbD 5 = false →
    decode iw = .andR (iw.extractLsb' 9 3) (iw.extractLsb' 6 3) (iw.extractLsb' 0 3)) ∧
  ∀ dr sr1 sr2 : Reg,
    EncodesAs (.andR dr sr1 sr2)
      [(12, 4, 0b0101), (9, 3, dr.toNat), (6, 3, sr1.toNat), (5, 1, 0), (3, 2, 0b00), (0, 3, sr2.toNat)] ∧
    Spells "and" [.reg dr, .reg sr1, .reg sr2] (.andR dr sr1 sr2) ∧
    WritesResult (.andR dr sr1 sr2) dr (fun s => s.getReg sr1 &&& s.getReg sr2)

/-- `40_alu.md` R103: the immediate is sign-extended before the AND. -/
def Obligations.AndImmediateForm : Prop :=
  (∀ iw : Word, iw.extractLsb' 12 4 = 5#4 → iw.getLsbD 5 = true →
    decode iw = .andI (iw.extractLsb' 9 3) (iw.extractLsb' 6 3) (iw.extractLsb' 0 5)) ∧
  ∀ (dr sr1 : Reg),
    SpellsLit "and" 5 (fun v => [.reg dr, .reg sr1, .lit v]) (.andI dr sr1) ∧
    ∀ imm5 : BitVec 5,
      EncodesAs (.andI dr sr1 imm5)
        [(12, 4, 0b0101), (9, 3, dr.toNat), (6, 3, sr1.toNat), (5, 1, 1), (0, 5, imm5.toNat)] ∧
      WritesResult (.andI dr sr1 imm5) dr (fun s => s.getReg sr1 &&& BitVec.ofInt 16 imm5.toInt)

/-- `40_alu.md` R104: the complement is 0xFFFF less the source. -/
def Obligations.NotForm : Prop :=
  (∀ iw : Word, iw.extractLsb' 12 4 = 9#4 → decode iw = .not (iw.extractLsb' 9 3) (iw.extractLsb' 6 3)) ∧
  ∀ dr sr1 : Reg,
    EncodesAs (.not dr sr1) [(12, 4, 0b1001), (9, 3, dr.toNat), (6, 3, sr1.toNat), (0, 6, 0b111111)] ∧
    Spells "not" [.reg dr, .reg sr1] (.not dr sr1) ∧
    WritesResult (.not dr sr1) dr (fun s => 0xFFFF - s.getReg sr1)

/-! ### Control transfer -/

/-- `41_control.md` R110: mask 000 always branches. -/
def Obligations.BranchForm : Prop :=
  (∀ iw : Word, iw.extractLsb' 12 4 = 0#4 →
    decode iw = .br (iw.getLsbD 11) (iw.getLsbD 10) (iw.getLsbD 9) (iw.extractLsb' 0 9)) ∧
  ∀ n z p : Bool,
    SpellsLit (branchSpelling n z p) 9 (fun v => [.lit v]) (.br n z p) ∧
    SpellsLabel (branchSpelling n z p) 9 (fun l => [.label l]) (.br n z p) ∧
    ∀ off9 : BitVec 9,
      EncodesAs (.br n z p off9)
        [(12, 4, 0b0000), (11, 1, n.toNat), (10, 1, z.toNat), (9, 1, p.toNat), (0, 9, off9.toNat)] ∧
      ∀ s : State, ∃ t, exec (.br n z p off9) s = .next t ∧
        (Taken n z p s.cond → t.pc = s.pc + BitVec.ofInt 16 off9.toInt) ∧ (¬ Taken n z p s.cond → t.pc = s.pc) ∧
        RegsSame s t ∧ t.cond = s.cond ∧ MemSame s t ∧ MarksSame s t

/-- `41_control.md` R111. -/
def Obligations.JumpForm : Prop :=
  (∀ iw : Word, iw.extractLsb' 12 4 = 12#4 → decode iw = .jmp (iw.extractLsb' 6 3)) ∧
  ∀ baseR : Reg,
    EncodesAs (.jmp baseR) [(12, 4, 0b1100), (9, 3, 0b000), (6, 3, baseR.toNat), (0, 6, 0b000000)] ∧
    Spells "jmp" [.reg baseR] (.jmp baseR) ∧
    Jumps (.jmp baseR) (fun s => s.getReg baseR)

/-- `41_control.md` R112. -/
def Obligations.CallLongForm : Prop :=
  (∀ iw : Word, iw.extractLsb' 12 4 = 4#4 → iw.getLsbD 11 = true → decode iw = .jsr (iw.extractLsb' 0 11)) ∧
  SpellsLabel "jsr" 11 (fun l => [.label l]) .jsr ∧
  ∀ off11 : BitVec 11,
    EncodesAs (.jsr off11) [(12, 4, 0b0100), (11, 1, 1), (0, 11, off11.toNat)] ∧
    Calls (.jsr off11) (fun s => s.pc + BitVec.ofInt 16 off11.toInt)

/-- `41_control.md` R113: the base is read after the link is written, so with BaseR = 7 control falls through. -/
def Obligations.CallRegisterForm : Prop :=
  (∀ iw : Word, iw.extractLsb' 12 4 = 4#4 → iw.getLsbD 11 = false → decode iw = .jsrr (iw.extractLsb' 6 3)) ∧
  ∀ baseR : Reg,
    EncodesAs (.jsrr baseR) [(12, 4, 0b0100), (11, 1, 0), (9, 2, 0b00), (6, 3, baseR.toNat), (0, 6, 0b000000)] ∧
    Spells "jsrr" [.reg baseR] (.jsrr baseR) ∧
    Calls (.jsrr baseR) (fun s => if baseR = 7 then s.pc else s.getReg baseR)

/-! ### Loads -/

/-- `42_load.md` R120. -/
def Obligations.LoadForm : Prop :=
  (∀ iw : Word, iw.extractLsb' 12 4 = 2#4 → decode iw = .ld (iw.extractLsb' 9 3) (iw.extractLsb' 0 9)) ∧
  ∀ dr : Reg,
    SpellsLabel "ld" 9 (fun l => [.reg dr, .label l]) (.ld dr) ∧
    ∀ off9 : BitVec 9,
      EncodesAs (.ld dr off9) [(12, 4, 0b0010), (9, 3, dr.toNat), (0, 9, off9.toNat)] ∧
      WritesResult (.ld dr off9) dr (fun s => s.memRead (s.pc + BitVec.ofInt 16 off9.toInt))

/-- `42_load.md` R121: exactly one extra dereference. -/
def Obligations.LoadIndirectForm : Prop :=
  (∀ iw : Word, iw.extractLsb' 12 4 = 10#4 → decode iw = .ldi (iw.extractLsb' 9 3) (iw.extractLsb' 0 9)) ∧
  ∀ dr : Reg,
    SpellsLabel "ldi" 9 (fun l => [.reg dr, .label l]) (.ldi dr) ∧
    ∀ off9 : BitVec 9,
      EncodesAs (.ldi dr off9) [(12, 4, 0b1010), (9, 3, dr.toNat), (0, 9, off9.toNat)] ∧
      WritesResult (.ldi dr off9) dr (fun s => s.memRead (s.memRead (s.pc + BitVec.ofInt 16 off9.toInt)))

/-- `42_load.md` R122. -/
def Obligations.LoadBaseOffsetForm : Prop :=
  (∀ iw : Word, iw.extractLsb' 12 4 = 6#4 →
    decode iw = .ldr (iw.extractLsb' 9 3) (iw.extractLsb' 6 3) (iw.extractLsb' 0 6)) ∧
  ∀ dr baseR : Reg,
    SpellsLit "ldr" 6 (fun v => [.reg dr, .reg baseR, .lit v]) (.ldr dr baseR) ∧
    ∀ off6 : BitVec 6,
      EncodesAs (.ldr dr baseR off6) [(12, 4, 0b0110), (9, 3, dr.toNat), (6, 3, baseR.toNat), (0, 6, off6.toNat)] ∧
      WritesResult (.ldr dr baseR off6) dr (fun s => s.memRead (s.getReg baseR + BitVec.ofInt 16 off6.toInt))

/-- `42_load.md` R123: no memory read, and COND is set from the address. -/
def Obligations.LoadEffectiveAddressForm : Prop :=
  (∀ iw : Word, iw.extractLsb' 12 4 = 14#4 → decode iw = .lea (iw.extractLsb' 9 3) (iw.extractLsb' 0 9)) ∧
  (∀ (dr : Reg) (off9 : BitVec 9) (s : State) (m : Memory), ∃ t, exec (.lea dr off9) s = .next t ∧
    exec (.lea dr off9) { s with mem := m } = .next { t with mem := m }) ∧
  ∀ dr : Reg,
    SpellsLabel "lea" 9 (fun l => [.reg dr, .label l]) (.lea dr) ∧
    ∀ off9 : BitVec 9,
      EncodesAs (.lea dr off9) [(12, 4, 0b1110), (9, 3, dr.toNat), (0, 9, off9.toNat)] ∧
      WritesResult (.lea dr off9) dr (fun s => s.pc + BitVec.ofInt 16 off9.toInt)

/-! ### Stores -/

/-- `43_store.md` R130. The address is the meaning's own (`State.pcRel`) and is said to be the rule's. -/
def Obligations.StoreForm : Prop :=
  (∀ iw : Word, iw.extractLsb' 12 4 = 3#4 → decode iw = .st (iw.extractLsb' 9 3) (iw.extractLsb' 0 9)) ∧
  ∀ sr : Reg,
    SpellsLabel "st" 9 (fun l => [.reg sr, .label l]) (.st sr) ∧
    ∀ off9 : BitVec 9,
      EncodesAs (.st sr off9) [(12, 4, 0b0011), (9, 3, sr.toNat), (0, 9, off9.toNat)] ∧
      Stores (.st sr off9) (fun s => s.pcRel off9) (fun s => s.getReg sr) ∧
      ∀ s : State, s.pcRel off9 = s.pc + BitVec.ofInt 16 off9.toInt

/-- `43_store.md` R131: the pointer cell is read, the cell it names is written. -/
def Obligations.StoreIndirectForm : Prop :=
  (∀ iw : Word, iw.extractLsb' 12 4 = 11#4 → decode iw = .sti (iw.extractLsb' 9 3) (iw.extractLsb' 0 9)) ∧
  ∀ sr : Reg,
    SpellsLabel "sti" 9 (fun l => [.reg sr, .label l]) (.sti sr) ∧
    ∀ off9 : BitVec 9,
      EncodesAs (.sti sr off9) [(12, 4, 0b1011), (9, 3, sr.toNat), (0, 9, off9.toNat)] ∧
      Stores (.sti sr off9) (fun s => s.pointer off9) (fun s => s.getReg sr) ∧
      ∀ s : State, s.pointer off9 = s.memRead (s.pc + BitVec.ofInt 16 off9.toInt)

/-- `43_store.md` R132. -/
def Obligations.StoreBaseOffsetForm : Prop :=
  (∀ iw : Word, iw.extractLsb' 12 4 = 7#4 →
    decode iw = .str (iw.extractLsb' 9 3) (iw.extractLsb' 6 3) (iw.extractLsb' 0 6)) ∧
  ∀ sr baseR : Reg,
    SpellsLit "str" 6 (fun v => [.reg sr, .reg baseR, .lit v]) (.str sr baseR) ∧
    ∀ off6 : BitVec 6,
      EncodesAs (.str sr baseR off6) [(12, 4, 0b0111), (9, 3, sr.toNat), (6, 3, baseR.toNat), (0, 6, off6.toNat)] ∧
      Stores (.str sr baseR off6) (fun s => s.baseOff baseR off6) (fun s => s.getReg sr) ∧
      ∀ s : State, s.baseOff baseR off6 = s.getReg baseR + BitVec.ofInt 16 off6.toInt

/-! ### System call and reserved opcodes -/

/-- Derived from `44_system.md` R140 to R143: the engine hands the machine, with PC already incremented, and the whole word to the
handler, and takes the handler's state and status as they are. The halt word 0xF025 answers HALT and changes no general
register; that it leaves memory, PC and COND unchanged too is the spec's own decision (R143, D14; log 10). Every other
answer is free: the statement holds for every handler (log 8). That the call always returns, so that every TRAP completes,
is the model's assumption (log 9). -/
def Obligations.TrapForm : Prop :=
  (∀ iw : Word, iw.extractLsb' 12 4 = 15#4 → decode iw = .trap iw) ∧
  (∀ iw : Word, EncodesAs (.trap iw) [(12, 4, 0b1111), (8, 4, 0b0000), (0, 8, (iw.extractLsb' 0 8).toNat)]) ∧
  (∀ s : State, ∃ t, exec (.trap 0xF025) s = .next t ∧ t.status = .halt ∧ RegsSame s t ∧ t.pc = s.pc ∧
    t.cond = s.cond ∧ MemSame s t ∧ t.stopped = s.stopped ∧ t.raised = s.raised ∧ t.trapCalls = s.trapCalls + 1) ∧
  (∀ (iw : Word) (s : State), iw ≠ 0xF025 → ∃ (a : Config.TrapAnswer) (t : State),
    a = Config.trapHandler s.regs s.pc s.cond s.mem iw s.trapCalls ∧ exec (.trap iw) s = .next t ∧
    t.status = a.status ∧ t.regs = a.regs ∧ t.pc = a.pc ∧ t.cond = a.cond ∧
    (∀ b : Word, t.memRead b = (a.writes.reverse.lookup b).getD (s.memRead b)) ∧
    t.stopped = s.stopped ∧ t.raised = s.raised ∧ t.trapCalls = s.trapCalls + 1)

/-- Derived from `44_system.md` R144: the six service words and their mnemonics. -/
def Obligations.ServiceWords : Prop :=
  Spells "getc" [] (.trap 0xF020) ∧ Spells "out" [] (.trap 0xF021) ∧ Spells "puts" [] (.trap 0xF022) ∧
  Spells "in" [] (.trap 0xF023) ∧ Spells "putsp" [] (.trap 0xF024) ∧ Spells "halt" [] (.trap 0xF025) ∧
  emit (.trap 0xF020) = .ok 0xF020 ∧ emit (.trap 0xF021) = .ok 0xF021 ∧ emit (.trap 0xF022) = .ok 0xF022 ∧
  emit (.trap 0xF023) = .ok 0xF023 ∧ emit (.trap 0xF024) = .ok 0xF024 ∧ emit (.trap 0xF025) = .ok 0xF025

/-- Derived from `44_system.md` R145, R146 and R147: the reserved opcodes raise IllegalOpcode, with no register, flag, PC
or memory change and no call of the handler, and have no encoding. (The record is the model's, log 13; that the raise is a
next state is the model's choice, log 11.) -/
def Obligations.ReservedForms : Prop :=
  (∀ iw : Word, iw.extractLsb' 12 4 = 8#4 → decode iw = .res8 iw) ∧
  (∀ iw : Word, iw.extractLsb' 12 4 = 13#4 → decode iw = .res13 iw) ∧
  ∀ iw : Word, Raises (.res8 iw) iw ∧ Raises (.res13 iw) iw ∧ encode (.res8 iw) = none ∧ encode (.res13 iw) = none

/-! ### Image, loader and assembler -/

/-- Derived from `30_encoding.md` R85 and `70_reset_and_hazards.md` R201: an image begins with 0x30 0x00, has two bytes for
the origin and for each word, is read back by the loader, and is refused if it is odd, has another origin word, or
would run past the top of memory. The names of the refusals, and that oddness is tested first, are the model's choice
(log 19). -/
def Obligations.ImageRoundTrip : Prop :=
  (∀ program : List Word,
    (imageBytes program).length = 2 * (program.length + 1) ∧ (imageBytes program).take 2 = [0x30, 0x00] ∧
    (program.length ≤ 0xD000 → parseImage (imageBytes program) = .ok program) ∧
    (0xD000 < program.length → parseImage (imageBytes program) = .error .tooLong)) ∧
  (∀ bytes : List Byte, bytes.length % 2 = 1 → parseImage bytes = .error .oddLength) ∧
  (∀ (bytes : List Byte) (program : List Word), parseImage bytes = .ok program → bytes = imageBytes program)

/-- Derived from `49_assembler.md` R151 ("Must be idempotent"): the line up to its first comment marker is blanks, the
normalized line, and blanks, where a blank is a space, a tab, a carriage return or a line feed; the normalized line has
no comment marker and no blank at either end, and normalizing it again changes nothing. -/
def Obligations.NormalizerIsIdempotent : Prop :=
  ∀ line : Text,
    (∃ a b : Text, line.takeWhile (· != ';') = a ++ normalizeLine line ++ b ∧
      (∀ c ∈ a, c ∈ [' ', '\t', '\r', '\n']) ∧ (∀ c ∈ b, c ∈ [' ', '\t', '\r', '\n'])) ∧
    normalizeLine (normalizeLine line) = normalizeLine line ∧ ';' ∉ normalizeLine line ∧
    (∀ c, (normalizeLine line).head? = some c → c ∉ [' ', '\t', '\r', '\n']) ∧
    (∀ c, (normalizeLine line).getLast? = some c → c ∉ [' ', '\t', '\r', '\n'])

/-- Derived from `49_assembler.md` R154: a label's recorded address is the origin and one Word for each line before it that
is neither empty nor a label definition. -/
def Obligations.LabelAddressCountsWords : Prop :=
  ∀ (before after : List Text) (line name : Text) (tab : SymTab), classify line = .labelDef name →
    pass1 1 0x3000 [] (before ++ line :: after) = .ok tab →
    tab.lookup name =
      some (0x3000 + before.countP (fun l => match classify l with | .code _ => true | _ => false))

/-- Derived from `49_assembler.md` R168: an assembled program has one word for each line that is neither empty nor a label
definition, and the image holds them after the origin word. -/
def Obligations.OneWordPerInstructionLine : Prop :=
  ∀ (source : Text) (bytes : List Byte), assembleImage source = .ok bytes →
    ∃ program : List Word, bytes = imageBytes program ∧ program.length =
      (source.splitOn '\n').countP (fun l => match classify l with | .code _ => true | _ => false)

/-- Derived from `49_assembler.md` R155 ("branch offset symmetry"): executing, at the address the line stands at, the branch
assembled for a label takes PC to the label's address; so for the subroutine call. -/
def Obligations.BranchOffsetSymmetry : Prop :=
  ∀ (tab : SymTab) (here target : Nat) (l : Text) (s : State), tab.lookup l = some target →
    target < 65536 → s.pc = BitVec.ofNat 16 (here + 1) →
    (∀ f : BitVec 9, labelField 9 tab here l = .ok f →
      ∃ t, exec (.br false false false f) s = .next t ∧ t.pc = BitVec.ofNat 16 target) ∧
    (∀ f : BitVec 11, labelField 11 tab here l = .ok f →
      ∃ t, exec (.jsr f) s = .next t ∧ t.pc = BitVec.ofNat 16 target)

/-- Derived from `49_assembler.md` R166: `fill $value` emits the literal modulo 65536, at any place in the program; a value outside
-32768..65535 is refused. -/
def Obligations.FillEmitsTheLiteral : Prop :=
  ∀ (tab : SymTab) (here : Nat) (v : Int), ∃ m, parseMnemonic "fill".toList = some m ∧
    (-32768 ≤ v → v ≤ 65535 → ∃ w : Word, assembleOps tab here m [.lit v] = .ok w ∧ (w.toNat : Int) = v % 65536) ∧
    (v < -32768 ∨ 65535 < v → assembleOps tab here m [.lit v] = .error .operandOutOfRange) ∧
    (∀ l, assembleOps tab here m [.label l] = .error .malformed)

/-- Derived from `49_assembler.md` R153 and R154: pass 1 accepts every source whose label definitions are pairwise
different, whatever the text of a label is; and what it refuses is a duplicate definition, at its line. That pass 1 is the
pass that refuses it, at the line of the second definition, is the model's choice (log 18). -/
def Obligations.PassOneRefusesOnlyDuplicates : Prop :=
  ∀ lines : List Text,
    ((∃ tab, pass1 1 0x3000 [] lines = .ok tab) ↔ (lines.filterMap labelDefined).Nodup) ∧
    (∀ e, pass1 1 0x3000 [] lines = .error e → ∃ name, e.why = .duplicateLabel name ∧
      ∃ (i j : Nat) (l m : Text), i < j ∧ e.line = j + 1 ∧ lines[i]? = some l ∧ lines[j]? = some m ∧
        labelDefined l = some name ∧ labelDefined m = some name)

/-- Derived from `49_assembler.md` R151, R153 and R154: what each pass takes a line for. An empty normalized line is
skipped; one that ends with `:` defines the label that is the text before it; any other is one word of the image. -/
def Obligations.LinesAreClassifiedByTheirEnd : Prop :=
  ∀ line : Text,
    (normalizeLine line = [] ↔ classify line = .blank) ∧
    (∀ name : Text, normalizeLine line = name ++ [':'] ↔ classify line = .labelDef name) ∧
    (∀ text : Text, normalizeLine line = text ∧ text ≠ [] ∧ text.getLast? ≠ some ':' ↔ classify line = .code text)
end

