-- ==== Sys2Proof/Laws/BitField.lean ====
section
/-! SUPPORT. Fields, places and single bits: what is put at a place is read back from it and from nowhere else. -/

namespace Sys2Proof

/-- Slices are fields: rewriting with this brings the lemmas below to bear. -/
theorem extractLsb'_eq_field (w : Word) (lo k : Nat) : w.extractLsb' lo k = field w lo k := rfl

theorem getElem_field (w : Word) (lo k i : Nat) (h : i < k) : (field w lo k)[i] = w.getLsbD (lo + i) := by
  simp [field]

theorem getLsbD_place {k : Nat} (f : BitVec k) (lo i : Nat) :
    (place f lo).getLsbD i = (decide (i < 16) && decide (lo ≤ i) && f.getLsbD (i - lo)) := by
  simp only [place, BitVec.getLsbD_shiftLeft, BitVec.getLsbD_setWidth]
  by_cases h1 : i < 16
  · have h3 : i - lo < 16 := by omega
    by_cases h2 : lo ≤ i
    · have h4 : ¬ i < lo := by omega
      simp [h1, h2, h3, h4]
    · have h4 : i < lo := by omega
      simp [h2, h4]
  · simp [h1]

theorem field_or (v w : Word) (lo k : Nat) : field (v ||| w) lo k = field v lo k ||| field w lo k := by
  ext i hi
  simp [field]

theorem bit_or (v w : Word) (n : Nat) : bit (v ||| w) n = (bit v n || bit w n) := by
  simp [bit]

/-- A field reads back what was placed there. -/
theorem field_place_same {k : Nat} (f : BitVec k) (lo : Nat) (h : lo + k ≤ 16) : field (place f lo) lo k = f := by
  ext i hi
  rw [getElem_field, getLsbD_place]
  have h1 : lo + i < 16 := by omega
  simp [h1, BitVec.getLsbD_eq_getElem hi]

/-- A field disjoint from the place reads zero. -/
theorem field_place_disjoint {j k : Nat} (f : BitVec j) (at_ lo : Nat) (h : at_ + j ≤ lo ∨ lo + k ≤ at_) :
    field (place f at_) lo k = 0 := by
  ext i hi
  rw [getElem_field, getLsbD_place]
  rcases h with h | h
  · have : f.getLsbD (lo + i - at_) = false := BitVec.getLsbD_of_ge _ _ (by omega)
    simp [this]
  · have : ¬ at_ ≤ lo + i := by omega
    simp [this]

theorem bit_place_outside {k : Nat} (f : BitVec k) (lo n : Nat) (h : n < lo ∨ lo + k ≤ n) :
    bit (place f lo) n = false := by
  rw [bit, getLsbD_place]
  rcases h with h | h
  · have : ¬ lo ≤ n := by omega
    simp [this]
  · have : f.getLsbD (n - lo) = false := BitVec.getLsbD_of_ge _ _ (by omega)
    simp [this]

theorem bit_place_inside {k : Nat} (f : BitVec k) (lo n : Nat) (h1 : lo ≤ n) (h2 : n < 16) :
    bit (place f lo) n = f.getLsbD (n - lo) := by
  rw [bit, getLsbD_place]
  simp [h1, h2]

/-! ### The opcode map's two directions (`30_encoding.md` R62) -/

@[simp] theorem Opcode.ofNumber_number (o : Opcode) : Opcode.ofNumber o.number = o := by
  cases o <;> rfl

@[simp] theorem Opcode.number_ofNumber (op : BitVec 4) : (Opcode.ofNumber op).number = op := by
  revert op
  decide

end Sys2Proof
end

