-- ==== Sys2Proof/Laws/Codec.lean ====
section
/-! SUPPORT. What decoding gives, and the words the encoder builds (`30_encoding.md` R64, R76). -/

namespace Sys2Proof

/-- The form decoded belongs to the opcode field of the word. -/
theorem opcode_decode (iw : Word) : (decode iw).opcode = Opcode.ofNumber (fieldOPC iw) := by
  unfold decode
  cases Opcode.ofNumber (fieldOPC iw) <;> dsimp only <;> (try split) <;> rfl

/-- What the decoder gives is well formed. -/
theorem wf_decode (iw : Word) : (decode iw).wf = true := by
  have h := Opcode.number_ofNumber (fieldOPC iw)
  unfold decode
  cases ho : Opcode.ofNumber (fieldOPC iw) <;> rw [ho] at h <;> dsimp only <;> (try split) <;>
    simp [Instr.wf, h]

end Sys2Proof
end

