-- ==== Sys2Proof/Laws/Memory.lean ====
section
/-! SUPPORT. Memory: a read after a write, the canonical form, and contents given as a function (`20_memory.md` R31). -/

namespace Sys2Proof.Machine

/-! ### Reading -/

theorem Memory.lookup_insert (m : Memory) (a b : Nat) (v : Word) :
    (m.insert a v).lookup b = if b = a then v else m.lookup b := by
  induction m with
  | nil => simp [Memory.insert, Memory.lookup]
  | cons c rest ih =>
    obtain ⟨d, w⟩ := c
    by_cases h1 : a < d
    · simp [Memory.insert, Memory.lookup, h1]
    · by_cases h2 : a = d
      · subst h2
        by_cases h3 : b = a <;> simp [Memory.insert, Memory.lookup, h3]
      · by_cases h3 : b = d
        · have : ¬ d = a := fun h => h2 h.symm
          simp [Memory.insert, Memory.lookup, h1, h2, h3, this]
        · simp [Memory.insert, Memory.lookup, h1, h2, h3, ih]

theorem Memory.lookup_erase (m : Memory) (a b : Nat) :
    (m.erase a).lookup b = if b = a then Memory.unlisted else m.lookup b := by
  induction m with
  | nil => simp [Memory.erase, Memory.lookup]
  | cons c rest ih =>
    obtain ⟨d, w⟩ := c
    by_cases h : a = d
    · subst h
      by_cases h3 : b = a
      · simpa [Memory.erase, h3] using ih
      · simp [Memory.erase, Memory.lookup, h3, ih]
    · by_cases h3 : b = d
      · have : ¬ d = a := fun h' => h h'.symm
        simp [Memory.erase, Memory.lookup, h, h3, this]
      · simp [Memory.erase, Memory.lookup, h, h3, ih]

theorem Memory.lookup_write (m : Memory) (a v : Word) (b : Nat) :
    (m.write a v).lookup b = if b = a.toNat then v else m.lookup b := by
  unfold Memory.write
  split
  · next h => rw [Memory.lookup_erase, h]
  · exact Memory.lookup_insert m a.toNat b v

theorem Memory.read_write (m : Memory) (a v b : Word) :
    (m.write a v).read b = if b = a then v else m.read b := by
  unfold Memory.read
  rw [Memory.lookup_write]
  simp [BitVec.toNat_inj]

@[simp] theorem Memory.read_nil (a : Word) : Memory.read [] a = Memory.unlisted := rfl

/-- After a list of writes a cell reads the last value written to it, or what it read before. -/
theorem Memory.read_writeAll (m : Memory) (ws : List (Word × Word)) (b : Word) :
    (m.writeAll ws).read b = (ws.reverse.lookup b).getD (m.read b) := by
  induction ws generalizing m with
  | nil => rfl
  | cons p rest ih =>
    obtain ⟨a, v⟩ := p
    show (Memory.writeAll (m.write a v) rest).read b = _
    rw [ih, Memory.read_write]
    simp only [List.reverse_cons, List.lookup_append]
    cases h : rest.reverse.lookup b <;> simp [List.lookup]
    by_cases hb : b = a <;> simp [hb]
    have : (b == a) = false := by simpa using hb
    simp [this]

/-- A block that does not run past the top of memory: a cell of the block reads the block's word, any other cell reads
as before. -/
theorem Memory.read_writeBlock (m : Memory) (a : Word) (vs : List Word) (hl : a.toNat + vs.length ≤ 65536) (b : Word) :
    (m.writeBlock a vs).read b =
      if a.toNat ≤ b.toNat then (vs[b.toNat - a.toNat]?).getD (m.read b) else m.read b := by
  induction vs generalizing m a with
  | nil => simp [Memory.writeBlock]
  | cons v rest ih =>
    simp only [List.length_cons] at hl
    unfold Memory.writeBlock
    by_cases hr : rest = []
    · subst hr
      simp only [Memory.writeBlock, Memory.read_write]
      by_cases hb : b = a
      · simp [hb]
      · have h1 : ¬ b.toNat = a.toNat := fun h => hb (BitVec.eq_of_toNat_eq h)
        rw [if_neg hb]
        split
        · rw [List.getElem?_eq_none (by simp; omega)]; rfl
        · rfl
    · have hn := List.length_pos_iff.mpr hr
      have ha : (a + 1).toNat = a.toNat + 1 := by simp [BitVec.toNat_add]; omega
      rw [ih _ _ (by omega), ha, Memory.read_write]
      by_cases hb : b = a
      · simp [hb]
      · have h1 : ¬ b.toNat = a.toNat := fun h => hb (BitVec.eq_of_toNat_eq h)
        rw [if_neg hb]
        by_cases h2 : a.toNat ≤ b.toNat
        · rw [if_pos (by omega), if_pos h2, show b.toNat - a.toNat = (b.toNat - (a.toNat + 1)) + 1 by omega,
            List.getElem?_cons_succ]
        · rw [if_neg (by omega), if_neg h2]

/-! ### The canonical form -/

theorem Memory.wfFrom_mono {m : Memory} {lo lo' : Nat} (hl : lo' ≤ lo) (h : m.wfFrom lo = true) :
    m.wfFrom lo' = true := by
  cases m with
  | nil => rfl
  | cons c rest =>
    simp only [Memory.wfFrom, Bool.and_eq_true, decide_eq_true_eq] at h ⊢
    exact ⟨⟨⟨by omega, h.1.1.2⟩, h.1.2⟩, h.2⟩

theorem Memory.wfFrom_insert {m : Memory} {lo a : Nat} {v : Word} (h : m.wfFrom lo = true) (hlo : lo ≤ a)
    (ha : a < 65536) (hv : v ≠ Memory.unlisted) : (m.insert a v).wfFrom lo = true := by
  induction m generalizing lo with
  | nil => simp [Memory.insert, Memory.wfFrom, hlo, ha, hv]
  | cons c rest ih =>
    obtain ⟨d, w⟩ := c
    simp only [Memory.wfFrom, Bool.and_eq_true, decide_eq_true_eq, bne_iff_ne] at h
    unfold Memory.insert
    split
    · simp only [Memory.wfFrom, Bool.and_eq_true, decide_eq_true_eq, bne_iff_ne]
      exact ⟨⟨⟨hlo, ha⟩, hv⟩, ⟨⟨by omega, h.1.1.2⟩, h.1.2⟩, h.2⟩
    · split
      · next _ h2 =>
        subst h2
        simp only [Memory.wfFrom, Bool.and_eq_true, decide_eq_true_eq, bne_iff_ne]
        exact ⟨⟨⟨hlo, ha⟩, hv⟩, h.2⟩
      · simp only [Memory.wfFrom, Bool.and_eq_true, decide_eq_true_eq, bne_iff_ne]
        exact ⟨h.1, ih h.2 (by omega)⟩

theorem Memory.wfFrom_erase {m : Memory} {lo : Nat} (a : Nat) (h : m.wfFrom lo = true) :
    (m.erase a).wfFrom lo = true := by
  induction m generalizing lo with
  | nil => rfl
  | cons c rest ih =>
    obtain ⟨d, w⟩ := c
    simp only [Memory.wfFrom, Bool.and_eq_true, decide_eq_true_eq, bne_iff_ne] at h
    unfold Memory.erase
    split
    · exact ih (Memory.wfFrom_mono (by omega) h.2)
    · simp only [Memory.wfFrom, Bool.and_eq_true, decide_eq_true_eq, bne_iff_ne]
      exact ⟨h.1, ih h.2⟩

/-- Every write keeps the canonical form. -/
theorem Memory.wf_write {m : Memory} (a v : Word) (h : m.wf = true) : (m.write a v).wf = true := by
  unfold Memory.write
  split
  · exact Memory.wfFrom_erase _ h
  · next hv => exact Memory.wfFrom_insert h (Nat.zero_le _) a.isLt hv

theorem Memory.wf_writeAll {m : Memory} (ws : List (Word × Word)) (h : m.wf = true) : (m.writeAll ws).wf = true := by
  induction ws generalizing m with
  | nil => exact h
  | cons p rest ih => exact ih (Memory.wf_write _ _ h)

theorem Memory.wf_writeBlock {m : Memory} (a : Word) (vs : List Word) (h : m.wf = true) :
    (m.writeBlock a vs).wf = true := by
  induction vs generalizing m a with
  | nil => exact h
  | cons v rest ih => exact ih _ (Memory.wf_write _ _ h)

@[simp] theorem Memory.wf_nil : Memory.wf [] = true := rfl

/-! ### Contents given as a function -/

theorem Memory.wfFrom_ofFnFrom (f : Nat → Word) (a n : Nat) (h : a + n ≤ 65536) :
    (Memory.ofFnFrom f a n).wfFrom a = true := by
  induction n generalizing a with
  | zero => rfl
  | succ n ih =>
    unfold Memory.ofFnFrom
    split
    · exact Memory.wfFrom_mono (Nat.le_succ a) (ih (a + 1) (by omega))
    · next hv =>
      simp only [Memory.wfFrom, Bool.and_eq_true, decide_eq_true_eq, bne_iff_ne]
      exact ⟨⟨⟨Nat.le_refl a, by omega⟩, hv⟩, ih (a + 1) (by omega)⟩

theorem Memory.lookup_ofFnFrom (f : Nat → Word) (a n b : Nat) :
    (Memory.ofFnFrom f a n).lookup b = if a ≤ b ∧ b < a + n then f b else Memory.unlisted := by
  induction n generalizing a with
  | zero =>
    simp only [Memory.ofFnFrom, Memory.lookup]
    rw [if_neg (by omega)]
  | succ n ih =>
    have hstep (hb : b ≠ a) : (a + 1 ≤ b ∧ b < a + 1 + n) = (a ≤ b ∧ b < a + (n + 1)) :=
      propext ⟨by omega, by omega⟩
    unfold Memory.ofFnFrom
    split
    · next hv =>
      by_cases hb : b = a
      · subst hb
        simp [ih, hv]
      · simp only [ih, hstep hb]
    · by_cases hb : b = a
      · subst hb
        simp [Memory.lookup]
      · simp only [Memory.lookup, if_neg hb, ih, hstep hb]

end Sys2Proof.Machine
end

