-- ==== Sys2Proof/Laws/State.lean ====
section
/-! SUPPORT. One lemma per field per update of State, so that no later proof unfolds a record update. -/

namespace Sys2Proof.Machine

@[simp] theorem State.setReg_regs (s : State) (r : Reg) (v : Word) : (s.setReg r v).regs = s.regs.set r.toNat v r.isLt := rfl
@[simp] theorem State.setReg_pc (s : State) (r : Reg) (v : Word) : (s.setReg r v).pc = s.pc := rfl
@[simp] theorem State.setReg_cond (s : State) (r : Reg) (v : Word) : (s.setReg r v).cond = s.cond := rfl
@[simp] theorem State.setReg_mem (s : State) (r : Reg) (v : Word) : (s.setReg r v).mem = s.mem := rfl
@[simp] theorem State.setReg_stopped (s : State) (r : Reg) (v : Word) : (s.setReg r v).stopped = s.stopped := rfl
@[simp] theorem State.setReg_status (s : State) (r : Reg) (v : Word) : (s.setReg r v).status = s.status := rfl
@[simp] theorem State.setReg_raised (s : State) (r : Reg) (v : Word) : (s.setReg r v).raised = s.raised := rfl
@[simp] theorem State.setReg_trapCalls (s : State) (r : Reg) (v : Word) : (s.setReg r v).trapCalls = s.trapCalls := rfl

@[simp] theorem State.setcc_regs (s : State) (v : Word) : (s.setcc v).regs = s.regs := rfl
@[simp] theorem State.setcc_pc (s : State) (v : Word) : (s.setcc v).pc = s.pc := rfl
@[simp] theorem State.setcc_cond (s : State) (v : Word) : (s.setcc v).cond = condOf v := rfl
@[simp] theorem State.setcc_mem (s : State) (v : Word) : (s.setcc v).mem = s.mem := rfl
@[simp] theorem State.setcc_stopped (s : State) (v : Word) : (s.setcc v).stopped = s.stopped := rfl
@[simp] theorem State.setcc_status (s : State) (v : Word) : (s.setcc v).status = s.status := rfl
@[simp] theorem State.setcc_raised (s : State) (v : Word) : (s.setcc v).raised = s.raised := rfl
@[simp] theorem State.setcc_trapCalls (s : State) (v : Word) : (s.setcc v).trapCalls = s.trapCalls := rfl

@[simp] theorem State.writeResult_regs (s : State) (r : Reg) (v : Word) : (s.writeResult r v).regs = (s.setReg r v).regs := rfl
@[simp] theorem State.writeResult_pc (s : State) (r : Reg) (v : Word) : (s.writeResult r v).pc = s.pc := rfl
@[simp] theorem State.writeResult_cond (s : State) (r : Reg) (v : Word) : (s.writeResult r v).cond = condOf v := rfl
@[simp] theorem State.writeResult_mem (s : State) (r : Reg) (v : Word) : (s.writeResult r v).mem = s.mem := rfl
@[simp] theorem State.writeResult_stopped (s : State) (r : Reg) (v : Word) : (s.writeResult r v).stopped = s.stopped := rfl
@[simp] theorem State.writeResult_status (s : State) (r : Reg) (v : Word) : (s.writeResult r v).status = s.status := rfl
@[simp] theorem State.writeResult_raised (s : State) (r : Reg) (v : Word) : (s.writeResult r v).raised = s.raised := rfl
@[simp] theorem State.writeResult_trapCalls (s : State) (r : Reg) (v : Word) : (s.writeResult r v).trapCalls = s.trapCalls := rfl

@[simp] theorem State.memWrite_regs (s : State) (a v : Word) : (s.memWrite a v).regs = s.regs := rfl
@[simp] theorem State.memWrite_pc (s : State) (a v : Word) : (s.memWrite a v).pc = s.pc := rfl
@[simp] theorem State.memWrite_cond (s : State) (a v : Word) : (s.memWrite a v).cond = s.cond := rfl
@[simp] theorem State.memWrite_mem (s : State) (a v : Word) : (s.memWrite a v).mem = s.mem.write a v := rfl
@[simp] theorem State.memWrite_stopped (s : State) (a v : Word) : (s.memWrite a v).stopped = s.stopped := rfl
@[simp] theorem State.memWrite_status (s : State) (a v : Word) : (s.memWrite a v).status = s.status := rfl
@[simp] theorem State.memWrite_raised (s : State) (a v : Word) : (s.memWrite a v).raised = s.raised := rfl
@[simp] theorem State.memWrite_trapCalls (s : State) (a v : Word) : (s.memWrite a v).trapCalls = s.trapCalls := rfl

@[simp] theorem State.jump_regs (s : State) (a : Word) : (s.jump a).regs = s.regs := rfl
@[simp] theorem State.jump_pc (s : State) (a : Word) : (s.jump a).pc = a := rfl
@[simp] theorem State.jump_cond (s : State) (a : Word) : (s.jump a).cond = s.cond := rfl
@[simp] theorem State.jump_mem (s : State) (a : Word) : (s.jump a).mem = s.mem := rfl
@[simp] theorem State.jump_stopped (s : State) (a : Word) : (s.jump a).stopped = s.stopped := rfl
@[simp] theorem State.jump_status (s : State) (a : Word) : (s.jump a).status = s.status := rfl
@[simp] theorem State.jump_raised (s : State) (a : Word) : (s.jump a).raised = s.raised := rfl
@[simp] theorem State.jump_trapCalls (s : State) (a : Word) : (s.jump a).trapCalls = s.trapCalls := rfl

@[simp] theorem State.link_regs (s : State) : (s.link).regs = (s.setReg Config.linkReg s.pc).regs := rfl
@[simp] theorem State.link_pc (s : State) : (s.link).pc = s.pc := rfl
@[simp] theorem State.link_cond (s : State) : (s.link).cond = s.cond := rfl
@[simp] theorem State.link_mem (s : State) : (s.link).mem = s.mem := rfl
@[simp] theorem State.link_stopped (s : State) : (s.link).stopped = s.stopped := rfl
@[simp] theorem State.link_status (s : State) : (s.link).status = s.status := rfl
@[simp] theorem State.link_raised (s : State) : (s.link).raised = s.raised := rfl
@[simp] theorem State.link_trapCalls (s : State) : (s.link).trapCalls = s.trapCalls := rfl

@[simp] theorem State.raiseIllegalOpcode_regs (s : State) (iw : Word) : (s.raiseIllegalOpcode iw).regs = s.regs := rfl
@[simp] theorem State.raiseIllegalOpcode_pc (s : State) (iw : Word) : (s.raiseIllegalOpcode iw).pc = s.pc := rfl
@[simp] theorem State.raiseIllegalOpcode_cond (s : State) (iw : Word) : (s.raiseIllegalOpcode iw).cond = s.cond := rfl
@[simp] theorem State.raiseIllegalOpcode_mem (s : State) (iw : Word) : (s.raiseIllegalOpcode iw).mem = s.mem := rfl
@[simp] theorem State.raiseIllegalOpcode_stopped (s : State) (iw : Word) : (s.raiseIllegalOpcode iw).stopped = true := rfl
@[simp] theorem State.raiseIllegalOpcode_status (s : State) (iw : Word) : (s.raiseIllegalOpcode iw).status = .error := rfl
@[simp] theorem State.raiseIllegalOpcode_raised (s : State) (iw : Word) : (s.raiseIllegalOpcode iw).raised = some ⟨iw, s.pc - 1⟩ := rfl
@[simp] theorem State.raiseIllegalOpcode_trapCalls (s : State) (iw : Word) : (s.raiseIllegalOpcode iw).trapCalls = s.trapCalls := rfl

@[simp] theorem State.advance_regs (s : State) : (s.advance).regs = s.regs := rfl
@[simp] theorem State.advance_pc (s : State) : (s.advance).pc = s.pc + 1 := rfl
@[simp] theorem State.advance_cond (s : State) : (s.advance).cond = s.cond := rfl
@[simp] theorem State.advance_mem (s : State) : (s.advance).mem = s.mem := rfl
@[simp] theorem State.advance_stopped (s : State) : (s.advance).stopped = s.stopped := rfl
@[simp] theorem State.advance_status (s : State) : (s.advance).status = .cont := rfl
@[simp] theorem State.advance_raised (s : State) : (s.advance).raised = none := rfl
@[simp] theorem State.advance_trapCalls (s : State) : (s.advance).trapCalls = s.trapCalls := rfl

@[simp] theorem State.settle_regs (s : State) : (s.settle).regs = s.regs := rfl
@[simp] theorem State.settle_pc (s : State) : (s.settle).pc = s.pc := rfl
@[simp] theorem State.settle_cond (s : State) : (s.settle).cond = s.cond := rfl
@[simp] theorem State.settle_mem (s : State) : (s.settle).mem = s.mem := rfl
@[simp] theorem State.settle_stopped (s : State) : (s.settle).stopped = (s.stopped || s.status != .cont) := rfl
@[simp] theorem State.settle_status (s : State) : (s.settle).status = s.status := rfl
@[simp] theorem State.settle_raised (s : State) : (s.settle).raised = s.raised := rfl
@[simp] theorem State.settle_trapCalls (s : State) : (s.settle).trapCalls = s.trapCalls := rfl

@[simp] theorem State.withWordAtPc_regs (s : State) (w : Word) : (s.withWordAtPc w).regs = s.regs := rfl
@[simp] theorem State.withWordAtPc_pc (s : State) (w : Word) : (s.withWordAtPc w).pc = s.pc := rfl
@[simp] theorem State.withWordAtPc_cond (s : State) (w : Word) : (s.withWordAtPc w).cond = s.cond := rfl
@[simp] theorem State.withWordAtPc_mem (s : State) (w : Word) : (s.withWordAtPc w).mem = s.mem.write s.pc w := rfl
@[simp] theorem State.withWordAtPc_stopped (s : State) (w : Word) : (s.withWordAtPc w).stopped = false := rfl
@[simp] theorem State.withWordAtPc_status (s : State) (w : Word) : (s.withWordAtPc w).status = s.status := rfl
@[simp] theorem State.withWordAtPc_raised (s : State) (w : Word) : (s.withWordAtPc w).raised = s.raised := rfl
@[simp] theorem State.withWordAtPc_trapCalls (s : State) (w : Word) : (s.withWordAtPc w).trapCalls = s.trapCalls := rfl

/-- R140, R143: the handler's call on the halt word. -/
theorem State.callTrapHandler_halt (s : State) :
    s.callTrapHandler wordHalt = { s with status := .halt, trapCalls := s.trapCalls + 1 } := by
  simp [State.callTrapHandler]

/-- R140 to R142: the handler's call on any other word, its free answer taken as it is. -/
theorem State.callTrapHandler_other (s : State) (iw : Word) (h : iw ≠ wordHalt) :
    s.callTrapHandler iw =
      { s with
        regs := (Config.trapHandler s.regs s.pc s.cond s.mem iw s.trapCalls).regs
        pc := (Config.trapHandler s.regs s.pc s.cond s.mem iw s.trapCalls).pc
        cond := (Config.trapHandler s.regs s.pc s.cond s.mem iw s.trapCalls).cond
        mem := s.mem.writeAll (Config.trapHandler s.regs s.pc s.cond s.mem iw s.trapCalls).writes
        status := (Config.trapHandler s.regs s.pc s.cond s.mem iw s.trapCalls).status
        trapCalls := s.trapCalls + 1 } := by
  simp [State.callTrapHandler, h]

@[simp] theorem State.callTrapHandler_stopped (s : State) (iw : Word) :
    (s.callTrapHandler iw).stopped = s.stopped := by
  unfold State.callTrapHandler; split <;> rfl

@[simp] theorem State.callTrapHandler_raised (s : State) (iw : Word) :
    (s.callTrapHandler iw).raised = s.raised := by
  unfold State.callTrapHandler; split <;> rfl

@[simp] theorem State.callTrapHandler_trapCalls (s : State) (iw : Word) :
    (s.callTrapHandler iw).trapCalls = s.trapCalls + 1 := by
  unfold State.callTrapHandler; split <;> rfl

@[simp] theorem settleResult_next (s : State) : settleResult (.next s) = .next s.settle := rfl
@[simp] theorem settleResult_fault (f : Fault) : settleResult (.fault f) = .fault f := rfl
@[simp] theorem settleResult_refused (r : Refusal) : settleResult (.refused r) = .refused r := rfl

end Sys2Proof.Machine
end

