-- ==== Sys2Proof/Laws/Ops.lean ====
section
/-! SUPPORT. What each shared operation can do, said once; provers cite these instead of unfolding the operation. -/

namespace Sys2Proof.Machine

/-! ### Registers (R11) -/

theorem State.getReg_setReg (s : State) (r q : Reg) (v : Word) :
    (s.setReg r v).getReg q = if q = r then v else s.getReg q := by
  simp [State.setReg, State.getReg, Vector.getElem_set, BitVec.toNat_inj, eq_comm]

@[simp] theorem State.getReg_setReg_same (s : State) (r : Reg) (v : Word) : (s.setReg r v).getReg r = v := by
  simp [State.getReg_setReg]

@[simp] theorem State.getReg_setcc (s : State) (v : Word) (q : Reg) : (s.setcc v).getReg q = s.getReg q := rfl
@[simp] theorem State.getReg_memWrite (s : State) (a v : Word) (q : Reg) : (s.memWrite a v).getReg q = s.getReg q := rfl
@[simp] theorem State.getReg_jump (s : State) (a : Word) (q : Reg) : (s.jump a).getReg q = s.getReg q := rfl
@[simp] theorem State.getReg_advance (s : State) (q : Reg) : s.advance.getReg q = s.getReg q := rfl
@[simp] theorem State.getReg_settle (s : State) (q : Reg) : s.settle.getReg q = s.getReg q := rfl
@[simp] theorem State.getReg_raiseIllegalOpcode (s : State) (iw : Word) (q : Reg) :
    (s.raiseIllegalOpcode iw).getReg q = s.getReg q := rfl

theorem State.getReg_writeResult (s : State) (r q : Reg) (v : Word) :
    (s.writeResult r v).getReg q = if q = r then v else s.getReg q :=
  State.getReg_setReg s r q v

theorem State.getReg_link (s : State) (q : Reg) : s.link.getReg q = if q = 7 then s.pc else s.getReg q :=
  State.getReg_setReg s Config.linkReg q s.pc

/-! ### Memory (R31) -/

theorem State.memRead_memWrite (s : State) (a v b : Word) :
    (s.memWrite a v).memRead b = if b = a then v else s.memRead b :=
  Memory.read_write s.mem a v b

@[simp] theorem State.memRead_setReg (s : State) (r : Reg) (v b : Word) : (s.setReg r v).memRead b = s.memRead b := rfl
@[simp] theorem State.memRead_setcc (s : State) (v b : Word) : (s.setcc v).memRead b = s.memRead b := rfl
@[simp] theorem State.memRead_writeResult (s : State) (r : Reg) (v b : Word) :
    (s.writeResult r v).memRead b = s.memRead b := rfl
@[simp] theorem State.memRead_jump (s : State) (a b : Word) : (s.jump a).memRead b = s.memRead b := rfl
@[simp] theorem State.memRead_link (s : State) (b : Word) : s.link.memRead b = s.memRead b := rfl
@[simp] theorem State.memRead_advance (s : State) (b : Word) : s.advance.memRead b = s.memRead b := rfl
@[simp] theorem State.memRead_settle (s : State) (b : Word) : s.settle.memRead b = s.memRead b := rfl
@[simp] theorem State.memRead_raiseIllegalOpcode (s : State) (iw b : Word) :
    (s.raiseIllegalOpcode iw).memRead b = s.memRead b := rfl

/-! ### Flags (R17) -/

theorem isCondOf_condOf (v : Word) : IsCondOf v (condOf v) := by
  have hneg : isNegative v = true ↔ 32768 ≤ v.toNat := by
    simp [isNegative, BitVec.getLsbD, Nat.testBit_eq_decide_div_mod_eq]
    have := v.isLt
    omega
  unfold IsCondOf
  rw [BitVec.lt_def, BitVec.lt_def, ge_iff_le, BitVec.le_def]
  by_cases h0 : v = 0#16
  · subst h0
    decide
  · have hpos : 0 < v.toNat := Nat.pos_of_ne_zero fun h => h0 (BitVec.eq_of_toNat_eq (by simpa using h))
    by_cases hn : isNegative v = true
    · have hc : condOf v = .negative := by simp [condOf, h0, hn]
      have := hneg.mp hn
      simp [hc, h0]
      omega
    · have hc : condOf v = .positive := by simp [condOf, h0, hn]
      have : ¬ 32768 ≤ v.toNat := fun h => hn (hneg.mpr h)
      simp [hc, h0]
      omega

/-! ### The invariant's parts, kept by each operation -/

theorem State.wf_callTrapHandler {s : State} (iw : Word) (h : s.mem.wf = true) :
    (s.callTrapHandler iw).mem.wf = true := by
  unfold State.callTrapHandler
  split
  · exact h
  · exact Memory.wf_writeAll _ h

theorem State.wf_memWrite {s : State} (a v : Word) (h : s.mem.wf = true) : (s.memWrite a v).mem.wf = true :=
  Memory.wf_write a v h

/-! ### The step -/

theorem step_running {s : State} (h : s.stopped = false) :
    step s = settleResult (exec (decode s.fetchWord) s.advance) := by
  simp [step, h]

theorem step_stopped {s : State} (h : s.stopped = true) : step s = .fault .machineStopped := by
  simp [step, h]

/-- A step that answers a next state ran the decoded instruction on a machine that was not stopped. -/
theorem step_next_inv {s t : State} (h : step s = .next t) :
    s.stopped = false ∧ ∃ u, exec (decode s.fetchWord) s.advance = .next u ∧ t = u.settle := by
  by_cases hs : s.stopped = true
  · rw [step_stopped hs] at h
    cases h
  · have hs' : s.stopped = false := by simpa using hs
    rw [step_running hs'] at h
    refine ⟨hs', ?_⟩
    cases hx : exec (decode s.fetchWord) s.advance with
    | next u =>
      rw [hx, settleResult_next] at h
      exact ⟨u, rfl, (Host.Outcome.next.inj h).symm⟩
    | fault f => rw [hx] at h; cases h
    | refused r => rw [hx] at h; cases h

/-! ### The host's hooks -/

theorem State.fetchWord_withFetchWord (s : State) (nbits w : Nat) :
    (s.withFetchWord nbits w).fetchWord = tableWord nbits w := by
  show (s.mem.write s.pc (tableWord nbits w)).read s.pc = _
  rw [Memory.read_write, if_pos rfl]

/-- The step after `withFetchWord` runs exactly the instruction of that word. -/
theorem step_withFetchWord (s : State) (nbits w : Nat) :
    step (s.withFetchWord nbits w) =
      settleResult (exec (decode (tableWord nbits w)) (s.withFetchWord nbits w).advance) := by
  rw [step_running rfl, State.fetchWord_withFetchWord]

/-- `State.reset` is reset with an empty image and the values the model names for the open parameters. -/
theorem State.reset_eq_launch :
    State.reset = State.launch ⟨[], [], #v[0, 0, 0, 0, 0, 0, 0, 0], .zero⟩ := rfl

end Sys2Proof.Machine
end

