-- ==== Sys2Proof/Laws/Exec.lean ====
section
/-! SUPPORT. One lemma per instruction: what `exec` answers, in the shared operations (Laws/Ops.lean says what those do). -/

namespace Sys2Proof.Machine

theorem exec_addR (dr sr1 sr2 : Reg) (s : State) :
    exec (.addR dr sr1 sr2) s = .next (s.writeResult dr (s.getReg sr1 + s.getReg sr2)) := rfl

theorem exec_addI (dr sr1 : Reg) (imm5 : BitVec 5) (s : State) :
    exec (.addI dr sr1 imm5) s = .next (s.writeResult dr (s.getReg sr1 + imm5.signExtend 16)) := rfl

theorem exec_andR (dr sr1 sr2 : Reg) (s : State) :
    exec (.andR dr sr1 sr2) s = .next (s.writeResult dr (s.getReg sr1 &&& s.getReg sr2)) := rfl

theorem exec_andI (dr sr1 : Reg) (imm5 : BitVec 5) (s : State) :
    exec (.andI dr sr1 imm5) s = .next (s.writeResult dr (s.getReg sr1 &&& imm5.signExtend 16)) := rfl

theorem exec_not (dr sr1 : Reg) (s : State) :
    exec (.not dr sr1) s = .next (s.writeResult dr (~~~ s.getReg sr1)) := rfl

theorem exec_br (n z p : Bool) (off9 : BitVec 9) (s : State) :
    exec (.br n z p off9) s =
      .next (if branchTaken n z p s.cond then s.jump (s.pc + off9.signExtend 16) else s) := rfl

theorem exec_jmp (baseR : Reg) (s : State) : exec (.jmp baseR) s = .next (s.jump (s.getReg baseR)) := rfl

theorem exec_jsr (off11 : BitVec 11) (s : State) :
    exec (.jsr off11) s = .next (s.link.jump (s.pc + off11.signExtend 16)) := rfl

theorem exec_jsrr (baseR : Reg) (s : State) :
    exec (.jsrr baseR) s = .next (s.link.jump (s.link.getReg baseR)) := rfl

theorem exec_ld (dr : Reg) (off9 : BitVec 9) (s : State) :
    exec (.ld dr off9) s = .next (s.writeResult dr (s.memRead (s.pc + off9.signExtend 16))) := rfl

theorem exec_ldi (dr : Reg) (off9 : BitVec 9) (s : State) :
    exec (.ldi dr off9) s = .next (s.writeResult dr (s.memRead (s.memRead (s.pc + off9.signExtend 16)))) := rfl

theorem exec_ldr (dr baseR : Reg) (off6 : BitVec 6) (s : State) :
    exec (.ldr dr baseR off6) s =
      .next (s.writeResult dr (s.memRead (s.getReg baseR + off6.signExtend 16))) := rfl

theorem exec_lea (dr : Reg) (off9 : BitVec 9) (s : State) :
    exec (.lea dr off9) s = .next (s.writeResult dr (s.pc + off9.signExtend 16)) := rfl

theorem exec_st (sr : Reg) (off9 : BitVec 9) (s : State) :
    exec (.st sr off9) s = .next (s.memWrite (s.pc + off9.signExtend 16) (s.getReg sr)) := rfl

theorem exec_sti (sr : Reg) (off9 : BitVec 9) (s : State) :
    exec (.sti sr off9) s = .next (s.memWrite (s.memRead (s.pc + off9.signExtend 16)) (s.getReg sr)) := rfl

theorem exec_str (sr baseR : Reg) (off6 : BitVec 6) (s : State) :
    exec (.str sr baseR off6) s = .next (s.memWrite (s.getReg baseR + off6.signExtend 16) (s.getReg sr)) := rfl

theorem exec_trap (iw : Word) (s : State) : exec (.trap iw) s = .next (s.callTrapHandler iw) := rfl

theorem exec_res8 (iw : Word) (s : State) : exec (.res8 iw) s = .next (s.raiseIllegalOpcode iw) := rfl

theorem exec_res13 (iw : Word) (s : State) : exec (.res13 iw) s = .next (s.raiseIllegalOpcode iw) := rfl

end Sys2Proof.Machine
end

