-- ==== Sys2Proof/Laws/PerInstr.lean ====
section
/-! SUPPORT. Statements about every instruction, one lemma per constructor. -/

namespace Sys2Proof.Laws

/-- An encoded word carries its instruction's opcode number in bits 15:12 (`30_encoding.md` R51, R62, R76). -/
def EncodeOpcode.Statement (i : Instr) : Prop := ∀ w, encode i = some w → fieldOPC w = i.opcode.number

theorem EncodeOpcode.addR (dr : Reg) (sr1 : Reg) (sr2 : Reg) : EncodeOpcode.Statement (.addR dr sr1 sr2) := by
  rintro _ ⟨⟩
  simp [fieldOPC, field_or, field_place_same, field_place_disjoint, Instr.opcode]

theorem EncodeOpcode.addI (dr : Reg) (sr1 : Reg) (imm5 : BitVec 5) : EncodeOpcode.Statement (.addI dr sr1 imm5) := by
  rintro _ ⟨⟩
  simp [fieldOPC, field_or, field_place_same, field_place_disjoint, Instr.opcode]

theorem EncodeOpcode.andR (dr : Reg) (sr1 : Reg) (sr2 : Reg) : EncodeOpcode.Statement (.andR dr sr1 sr2) := by
  rintro _ ⟨⟩
  simp [fieldOPC, field_or, field_place_same, field_place_disjoint, Instr.opcode]

theorem EncodeOpcode.andI (dr : Reg) (sr1 : Reg) (imm5 : BitVec 5) : EncodeOpcode.Statement (.andI dr sr1 imm5) := by
  rintro _ ⟨⟩
  simp [fieldOPC, field_or, field_place_same, field_place_disjoint, Instr.opcode]

theorem EncodeOpcode.not (dr : Reg) (sr1 : Reg) : EncodeOpcode.Statement (.not dr sr1) := by
  rintro _ ⟨⟩
  simp [fieldOPC, field_or, field_place_same, field_place_disjoint, Instr.opcode]

theorem EncodeOpcode.br (n : Bool) (z : Bool) (p : Bool) (off9 : BitVec 9) : EncodeOpcode.Statement (.br n z p off9) := by
  rintro _ ⟨⟩
  simp [fieldOPC, field_or, field_place_same, field_place_disjoint, Instr.opcode]

theorem EncodeOpcode.jmp (baseR : Reg) : EncodeOpcode.Statement (.jmp baseR) := by
  rintro _ ⟨⟩
  simp [fieldOPC, field_or, field_place_same, field_place_disjoint, Instr.opcode]

theorem EncodeOpcode.jsr (off11 : BitVec 11) : EncodeOpcode.Statement (.jsr off11) := by
  rintro _ ⟨⟩
  simp [fieldOPC, field_or, field_place_same, field_place_disjoint, Instr.opcode]

theorem EncodeOpcode.jsrr (baseR : Reg) : EncodeOpcode.Statement (.jsrr baseR) := by
  rintro _ ⟨⟩
  simp [fieldOPC, field_or, field_place_same, field_place_disjoint, Instr.opcode]

theorem EncodeOpcode.ld (dr : Reg) (off9 : BitVec 9) : EncodeOpcode.Statement (.ld dr off9) := by
  rintro _ ⟨⟩
  simp [fieldOPC, field_or, field_place_same, field_place_disjoint, Instr.opcode]

theorem EncodeOpcode.ldi (dr : Reg) (off9 : BitVec 9) : EncodeOpcode.Statement (.ldi dr off9) := by
  rintro _ ⟨⟩
  simp [fieldOPC, field_or, field_place_same, field_place_disjoint, Instr.opcode]

theorem EncodeOpcode.ldr (dr : Reg) (baseR : Reg) (off6 : BitVec 6) : EncodeOpcode.Statement (.ldr dr baseR off6) := by
  rintro _ ⟨⟩
  simp [fieldOPC, field_or, field_place_same, field_place_disjoint, Instr.opcode]

theorem EncodeOpcode.lea (dr : Reg) (off9 : BitVec 9) : EncodeOpcode.Statement (.lea dr off9) := by
  rintro _ ⟨⟩
  simp [fieldOPC, field_or, field_place_same, field_place_disjoint, Instr.opcode]

theorem EncodeOpcode.st (sr : Reg) (off9 : BitVec 9) : EncodeOpcode.Statement (.st sr off9) := by
  rintro _ ⟨⟩
  simp [fieldOPC, field_or, field_place_same, field_place_disjoint, Instr.opcode]

theorem EncodeOpcode.sti (sr : Reg) (off9 : BitVec 9) : EncodeOpcode.Statement (.sti sr off9) := by
  rintro _ ⟨⟩
  simp [fieldOPC, field_or, field_place_same, field_place_disjoint, Instr.opcode]

theorem EncodeOpcode.str (sr : Reg) (baseR : Reg) (off6 : BitVec 6) : EncodeOpcode.Statement (.str sr baseR off6) := by
  rintro _ ⟨⟩
  simp [fieldOPC, field_or, field_place_same, field_place_disjoint, Instr.opcode]

theorem EncodeOpcode.trap (iw : Word) : EncodeOpcode.Statement (.trap iw) := by
  rintro _ ⟨⟩
  simp [fieldOPC, field_or, field_place_same, field_place_disjoint, Instr.opcode]

theorem EncodeOpcode.res8 (iw : Word) : EncodeOpcode.Statement (.res8 iw) := nofun

theorem EncodeOpcode.res13 (iw : Word) : EncodeOpcode.Statement (.res13 iw) := nofun

end Sys2Proof.Laws
end

