-- ==== Sys2Proof/Tests/Slice0.lean ====
section
/-! SUPPORT. The model's own tests. Every expected value is a row of `95_test_vectors.md` (the section is named), or is
written out from the encodings of `30_encoding.md` R61. Then, for every statement with hypotheses, a witness: concrete
states and operands that meet them. -/

namespace Sys2Proof.Tests

open Sys2Proof Sys2Proof.Machine

/-! ### WellFormed: an ill-formed term of each check is refused -/

theorem test_wf_trap_of_another_opcode : (Instr.trap 0x1234).wf = false := by decide
theorem test_wf_res8_of_another_opcode : (Instr.res8 0xD000).wf = false := by decide
theorem test_wf_res13_of_another_opcode : (Instr.res13 0x8000).wf = false := by decide
theorem test_wf_accepts : (Instr.trap 0xFFFF).wf = true ∧ (Instr.res8 0x8FFF).wf = true ∧ (Instr.res13 0xDEAD).wf = true := by
  decide

/-! ### Decode: a word of every form, bit by bit from R61 (§2.2) -/

theorem test_decode_addR : decode 0b0001_001_010_0_00_011 = .addR 1 2 3 := by decide
theorem test_decode_addR_filler : decode 0b0001_001_010_0_11_011 = .addR 1 2 3 := by decide
theorem test_decode_addI : decode 0b0001_001_010_1_11111 = .addI 1 2 0b11111 := by decide
theorem test_decode_andR : decode 0b0101_011_001_0_00_010 = .andR 3 1 2 := by decide
theorem test_decode_andI : decode 0b0101_101_110_1_10000 = .andI 5 6 0b10000 := by decide
theorem test_decode_not : decode 0b1001_001_010_111111 = .not 1 2 := by decide
theorem test_decode_br : decode 0b0000_0_1_0_000000011 = .br false true false 3 := by decide
theorem test_decode_jmp : decode 0b1100_000_011_000000 = .jmp 3 := by decide
theorem test_decode_jsr : decode 0b0100_1_00000001111 = .jsr 15 := by decide
theorem test_decode_jsrr : decode 0b0100_0_00_010_000000 = .jsrr 2 := by decide
theorem test_decode_ld : decode 0b0010_010_000000010 = .ld 2 2 := by decide
theorem test_decode_ldi : decode 0b1010_001_000000101 = .ldi 1 5 := by decide
theorem test_decode_ldr : decode 0b0110_001_010_000011 = .ldr 1 2 3 := by decide
theorem test_decode_lea : decode 0b1110_000_111111111 = .lea 0 0x1FF := by decide
theorem test_decode_st : decode 0b0011_011_000000101 = .st 3 5 := by decide
theorem test_decode_sti : decode 0b1011_001_000000101 = .sti 1 5 := by decide
theorem test_decode_str : decode 0b0111_001_010_111111 = .str 1 2 0b111111 := by decide
theorem test_decode_trap : decode 0b1111_0000_00100101 = .trap 0xF025 := by decide
theorem test_decode_res8 : decode 0b1000_111111111111 = .res8 0x8FFF := by decide
theorem test_decode_res13 : decode 0b1101_111010101101 = .res13 0xDEAD := by decide

/-! ### Encode (§2.2) -/

theorem test_encode_alu :
    encode (.addR 7 7 7) = some 0x1FC7 ∧ encode (.addI 0 0 (BitVec.ofInt 5 (-16))) = some 0x1030 ∧
    encode (.addI 0 0 15) = some 0x102F ∧ encode (.andI 5 5 (BitVec.ofInt 5 (-1))) = some 0x5B7F ∧
    encode (.not 0 0) = some 0x903F ∧ encode (.not 7 7) = some 0x9FFF ∧ encode (.andR 3 1 2) = some 0x5642 := by decide

theorem test_encode_control :
    encode (.br true true true (BitVec.ofInt 9 (-256))) = some 0x0F00 ∧ encode (.br true false false 255) = some 0x08FF ∧
    encode (.jsr (BitVec.ofInt 11 (-1024))) = some 0x4C00 ∧ encode (.jsr 1023) = some 0x4BFF ∧
    encode (.jsrr 0) = some 0x4000 ∧ encode (.jmp 0) = some 0xC000 := by decide

theorem test_encode_memory :
    encode (.ldr 7 6 (BitVec.ofInt 6 (-32))) = some 0x6FA0 ∧ encode (.str 0 0 31) = some 0x701F ∧
    encode (.lea 7 0) = some 0xEE00 ∧ encode (.ld 2 2) = some 0x2402 ∧ encode (.ldi 1 5) = some 0xA205 ∧
    encode (.st 3 5) = some 0x3605 ∧ encode (.sti 1 5) = some 0xB205 := by decide

theorem test_encode_system :
    encode (.trap 0xFF25) = some 0xF025 ∧ encode (.res8 0x8000) = none ∧ encode (.res13 0xD000) = none := by decide

theorem test_canonical :
    canonicalWord 0x1283 = true ∧ canonicalWord 0x129B = false ∧ canonicalWord 0x47FF = false ∧
    canonicalWord 0x9280 = false ∧ canonicalWord 0xCFFF = false ∧ canonicalWord 0xFF25 = false ∧
    canonicalWord 0x8000 = false := by decide

/-! ### Bit-field utilities (§1 E1 to E3, §2.1) -/

theorem test_bit_readers :
    getBit? 0x8000 15 = some 1 ∧ getBit? 0x8000 14 = some 0 ∧ getBits? 0xABCD 4 8 = some 0xBC ∧
    getBits? 0xABCD 0 16 = some 0xABCD ∧ getBits? 0x0E00 9 3 = some 7 := by decide

theorem test_bit_writers :
    setBit? 0x1000 5 = some 0x1020 ∧ setBit? 0xFFFF 3 = some 0xFFFF ∧ clearBit? 0x1020 5 = some 0x1000 ∧
    clearBit? 0x0000 7 = some 0x0000 := by decide

theorem test_sign_extend :
    signExtend? 0b11111 5 = some 0xFFFF ∧ signExtend? 0b01111 5 = some 15 ∧ signExtend? 0x400 11 = some 0xFC00 ∧
    signExtend? 0x8000 16 = some 0x8000 ∧ signExtend? 0xFFE1 5 = some 0x0001 := by decide

theorem test_sign_tests :
    isPositive 0 = true ∧ isNegative 0 = false ∧ isNegative 0x8000 = true ∧ isPositive 0x7FFF = true := by decide

/-! ### One step of each instruction (§2.3 to §2.7) -/

/-- A machine at reset, but for PC, COND, some registers and some cells. -/
def machine (pc : Word) (cond : Cond) (regs cells : List (Word × Word)) : State :=
  let s := regs.foldl (fun s p => s.setReg (p.1.extractLsb' 0 3) p.2) State.reset
  { s with pc := pc, cond := cond, mem := Memory.writeAll [] cells }

/-- `p` holds of the state a step answers. -/
def after (s : State) (p : State → Bool) : Bool :=
  match step s with
  | .next t => p t
  | .fault _ => false
  | .refused _ => false

theorem test_addR : after (machine 0x3000 .zero [(2, 5), (3, 7)] [(0x3000, 0x1283)])
    (fun t => t.getReg 1 == 0x000C && t.cond == .positive && t.pc == 0x3001) = true := by decide
theorem test_addR_wraps : after (machine 0x3000 .positive [(0, 0x8000)] [(0x3000, 0x1000)])
    (fun t => t.getReg 0 == 0 && t.cond == .zero) = true := by decide
theorem test_addI : after (machine 0x3000 .zero [(2, 0)] [(0x3000, 0x12BF)])
    (fun t => t.getReg 1 == 0xFFFF && t.cond == .negative && t.pc == 0x3001) = true := by decide
theorem test_addI_sixteen_below : after (machine 0x3000 .negative [(0, 0x0010)] [(0x3000, 0x1030)])
    (fun t => t.getReg 0 == 0 && t.cond == .zero) = true := by decide
theorem test_andR : after (machine 0x3000 .zero [(1, 0xFF0F), (2, 0x0FF0)] [(0x3000, 0x5642)])
    (fun t => t.getReg 3 == 0x0F00 && t.cond == .positive) = true := by decide
theorem test_andI_extends : after (machine 0x3000 .zero [(0, 0x8421)] [(0x3000, 0x503F)])
    (fun t => t.getReg 0 == 0x8421 && t.cond == .negative) = true := by decide
theorem test_andI_low : after (machine 0x3000 .negative [(0, 0xFFF0)] [(0x3000, 0x502F)])
    (fun t => t.getReg 0 == 0 && t.cond == .zero) = true := by decide
theorem test_not : after (machine 0x3000 .zero [(2, 0x00FF)] [(0x3000, 0x92BF)])
    (fun t => t.getReg 1 == 0xFF00 && t.cond == .negative) = true := by decide
theorem test_not_filler : after (machine 0x3000 .zero [] [(0x3000, 0x9280)])
    (fun t => t.getReg 1 == 0xFFFF && t.cond == .negative) = true := by decide
theorem test_br_taken : after (machine 0x3000 .zero [] [(0x3000, 0x0403)]) (fun t => t.pc == 0x3004) = true := by decide
theorem test_br_zero_mask_wraps : after (machine 0xFFFF .negative [] [(0xFFFF, 0x0001)])
    (fun t => t.pc == 0x0001 && t.cond == .negative) = true := by decide
theorem test_jmp : after (machine 0x3000 .zero [(3, 0x4000), (7, 9)] [(0x3000, 0xC0C0)])
    (fun t => t.pc == 0x4000 && t.getReg 7 == 9) = true := by decide
theorem test_jsr : after (machine 0x3000 .zero [] [(0x3000, 0x4C00)])
    (fun t => t.getReg 7 == 0x3001 && t.pc == 0x2C01 && t.cond == .zero) = true := by decide
theorem test_jsrr : after (machine 0x3005 .zero [(2, 0x5000)] [(0x3005, 0x4080)])
    (fun t => t.getReg 7 == 0x3006 && t.pc == 0x5000) = true := by decide
theorem test_jsrr_link_first : after (machine 0x3005 .zero [(7, 0x5000)] [(0x3005, 0x41C0)])
    (fun t => t.getReg 7 == 0x3006 && t.pc == 0x3006) = true := by decide
theorem test_ld : after (machine 0x3000 .zero [] [(0x3000, 0x2402), (0x3003, 0x8001)])
    (fun t => t.getReg 2 == 0x8001 && t.cond == .negative && t.pc == 0x3001) = true := by decide
theorem test_ld_own_word : after (machine 0x3000 .zero [] [(0x3000, 0x21FF)])
    (fun t => t.getReg 0 == 0x21FF && t.cond == .positive) = true := by decide
theorem test_ldi : after (machine 0x3000 .zero [] [(0x3000, 0xA205), (0x3006, 0xFFFF), (0xFFFF, 0x9000)])
    (fun t => t.getReg 1 == 0x9000 && t.cond == .negative) = true := by decide
theorem test_ldr_wraps : after (machine 0x3000 .zero [] [(0x3000, 0x62BF), (0xFFFF, 0x0007)])
    (fun t => t.getReg 1 == 0x0007 && t.cond == .positive) = true := by decide
theorem test_ldr_into_base : after (machine 0x3000 .zero [(2, 0x4020)] [(0x3000, 0x64A0), (0x4000, 0xFFFF)])
    (fun t => t.getReg 2 == 0xFFFF && t.cond == .negative) = true := by decide
theorem test_lea : after (machine 0x3000 .zero [] [(0x3000, 0xEEFF)])
    (fun t => t.getReg 7 == 0x3100 && t.cond == .positive) = true := by decide
theorem test_lea_flags_from_address : after (machine 0x7FFF .zero [] [(0x7FFF, 0xE000)])
    (fun t => t.getReg 0 == 0x8000 && t.cond == .negative) = true := by decide
theorem test_st : after (machine 0x3000 .zero [(3, 0xBEEF)] [(0x3000, 0x3605)])
    (fun t => t.memRead 0x3006 == 0xBEEF && t.cond == .zero && t.pc == 0x3001) = true := by decide
theorem test_st_over_itself : after (machine 0x3000 .zero [] [(0x3000, 0x31FF)])
    (fun t => t.memRead 0x3000 == 0 && t.mem == []) = true := by decide
theorem test_sti : after (machine 0x3000 .zero [(1, 7)] [(0x3000, 0xB205), (0x3006, 0x4000)])
    (fun t => t.memRead 0x4000 == 7 && t.memRead 0x3006 == 0x4000) = true := by decide
theorem test_str_wraps : after (machine 0x3000 .zero [(0, 0xFFF0)] [(0x3000, 0x701F)])
    (fun t => t.memRead 0x000F == 0xFFF0) = true := by decide
theorem test_str_base_is_source : after (machine 0x3000 .zero [(1, 0x4000)] [(0x3000, 0x7240)])
    (fun t => t.memRead 0x4000 == 0x4000) = true := by decide
theorem test_trap_halt : after (machine 0x3000 .negative [(7, 9)] [(0x3000, 0xF025)])
    (fun t => t.status == .halt && t.stopped && t.pc == 0x3001 && t.cond == .negative &&
      t.getReg 7 == 9 && t.mem == [(0x3000, 0xF025)]) = true := by decide
/-- The answer of any other system call is the handler's: the test says only that the step completes. -/
theorem test_trap_other : ∃ t, step (machine 0x3000 .zero [] [(0x3000, 0xFF25)]) = .next t ∧ t.trapCalls = 1 :=
  ⟨_, rfl, rfl⟩
theorem test_res8 : after (machine 0x1234 .positive [] [(0x1234, 0x8FFF)])
    (fun t => t.status == .error && t.stopped && t.pc == 0x1235 && t.cond == .positive &&
      t.raised == some ⟨0x8FFF, 0x1234⟩) = true := by decide
theorem test_res13 : after (machine 0xFFFF .zero [] [(0xFFFF, 0xDEAD)])
    (fun t => t.status == .error && t.stopped && t.pc == 0x0000) = true := by decide

theorem test_stopped_machine : step { State.reset with stopped := true } = .fault .machineStopped := rfl

/-- The host's hook: the word of a table row is the one the next step runs. -/
theorem test_withFetchWord : after (State.reset.withFetchWord 16 0x102F) (fun t => t.getReg 0 == 15) = true ∧
    decodeTableWord 16 0xE1FF = some (.lea 0 0x1FF) := by decide

/-! ### Image, loader and assembler (§1 E12, §2.8, §3) -/

theorem test_image : imageBytes [0x1021, 0x01FE] = [0x30, 0x00, 0x10, 0x21, 0x01, 0xFE] := by decide
theorem test_loader : parseImage [0x30, 0x00, 0x10, 0x21, 0x01, 0xFE] = .ok [0x1021, 0x01FE] ∧
    parseImage [0x30] = .error .oddLength ∧ parseImage [] = .error .tooShort ∧
    parseImage [0x00, 0x30] = .error .wrongOrigin ∧ parseImage [0x30, 0x00] = .ok [] := ⟨rfl, rfl, rfl, rfl, rfl⟩

/-- The error, if there is one. -/
def errorOf (r : Except AsmError (List Byte)) : Option AsmError :=
  match r with
  | .ok _ => none
  | .error e => some e

/-- The bytes, if there are any. -/
def bytesOf (r : Except AsmError (List Byte)) : Option (List Byte) :=
  match r with
  | .ok b => some b
  | .error _ => none

theorem test_assemble_p1 : bytesOf (assembleImage "loop:\nadd %r0 %r0 $1\nbr loop".toList) =
    some [0x30, 0x00, 0x10, 0x21, 0x01, 0xFE] := by decide

theorem test_assemble_unresolved : errorOf (assembleImage "br nowhere".toList) =
    some ⟨1, .unresolvedLabel "nowhere".toList⟩ := by decide
theorem test_assemble_malformed : errorOf (assembleImage "   ; only a comment\nmov %r1 %r2".toList) =
    some ⟨2, .malformed⟩ := by decide
theorem test_assemble_ranges : errorOf (assembleImage "add %r1 %r2 $16".toList) = some ⟨1, .operandOutOfRange⟩ ∧
    errorOf (assembleImage "add %r8 %r0 %r0".toList) = some ⟨1, .registerOutOfRange⟩ := by decide

/-- R153: the label is the text before the terminator, whatever it is; a duplicate, and a label with an instruction on its
line, are refused. -/
theorem test_label_text : bytesOf (assembleImage "1st:\nbr 1st\na-b:\nbr a-b".toList) =
    some [0x30, 0x00, 0x01, 0xFF, 0x01, 0xFF] := by decide
theorem test_label_refusals :
    errorOf (assembleImage "x:\nhalt\nx:".toList) = some ⟨3, .duplicateLabel ['x']⟩ ∧
    errorOf (assembleImage "x: halt".toList) = some ⟨1, .labelAndInstruction⟩ := by decide

/-- The word of a line at an address, with the symbols given. -/
def wordOf (line : String) (here : Nat) (tab : List (String × Nat)) : Option Word :=
  match assembleLine (tab.map (fun p => (p.1.toList, p.2))) here line.toList with
  | .ok w => some w
  | .error _ => none

theorem test_lines_registers : wordOf "jmp %r7" 0 [] = some 0xC1C0 ∧ wordOf "jsrr %r5" 0 [] = some 0x4140 ∧
    wordOf "not %r1 %r2" 0 [] = some 0x92BF ∧ wordOf "putsp" 0 [] = some 0xF024 := by decide
theorem test_lines_literals : wordOf "and %r0 %r0 $0" 0 [] = some 0x5020 ∧ wordOf "brz $3" 0 [] = some 0x0403 ∧
    wordOf "ldr %r3 %r1 $0" 0 [] = some 0x6640 ∧ wordOf "str %r1 %r2 $-1" 0 [] = some 0x72BF ∧
    wordOf "fill $-3" 0 [] = some 0xFFFD := by decide
theorem test_lines_labels : wordOf "brp loop" 0x3007 [("loop", 0x3003)] = some 0x03FB ∧
    wordOf "jsr neg" 0x3001 [("neg", 0x3007)] = some 0x4805 ∧ wordOf "ld %r2 count" 0x3002 [("count", 0x300A)] = some 0x2407 ∧
    wordOf "ldi %r4 ptr" 0x3003 [("ptr", 0x300B)] = some 0xA807 := by decide
theorem test_lines_labels_2 : wordOf "lea %r1 data" 0x3000 [("data", 0x300B)] = some 0xE20A ∧
    wordOf "st %r0 result" 0x3008 [("result", 0x300E)] = some 0x3005 ∧
    wordOf "sti %r0 ptr" 0x3002 [("ptr", 0x300B)] = some 0xB008 := by decide


/-! ### Witnesses: what meets the hypotheses of each statement, clause by clause -/

theorem witness_StepRunsDecodedInstruction :
    ∃ s : State, s.stopped = false ∧ decode (s.memRead s.pc) = .addI 0 0 0b11111 :=
  ⟨machine 0xFFFF .zero [] [(0xFFFF, 0x103F)], rfl, by decide⟩

theorem witness_StoppedMachineTakesNoStep :
    (∃ s : State, s.stopped = true) ∧ (∃ s t : State, step s = .next t ∧ t.stopped = true) ∧
    (∃ s t : State, step s = .next t ∧ t.stopped = false) :=
  ⟨⟨{ State.reset with stopped := true }, rfl⟩, ⟨State.reset.withFetchWord 16 0xF025, _, rfl, rfl⟩, ⟨State.reset, _, rfl, rfl⟩⟩

theorem witness_EveryRunningStepCompletes : ∃ s : State, s.stopped = false ∧ decode s.fetchWord = .res13 0xDEAD :=
  ⟨machine 0xFFFF .zero [] [(0xFFFF, 0xDEAD)], rfl, by decide⟩

theorem witness_StatusOfEveryStep :
    (∃ s t : State, step s = .next t ∧ (decode s.fetchWord).opcode ≠ .trap ∧ (decode s.fetchWord).legal = true) ∧
    (∃ s t : State, step s = .next t ∧ (decode s.fetchWord).legal = false) ∧
    (∃ s t : State, step s = .next t ∧ (decode s.fetchWord).opcode = .trap) :=
  ⟨⟨State.reset.withFetchWord 16 0x1283, _, rfl, by decide, by decide⟩,
   ⟨State.reset.withFetchWord 16 0x8000, _, rfl, by decide⟩, ⟨State.reset.withFetchWord 16 0xFFFF, _, rfl, by decide⟩⟩

theorem witness_StoreIsSeenByTheNextFetch :
    (∃ s t : State, step s = .next t ∧ decode s.fetchWord = .st 1 0 ∧ s.advance.pcRel (0 : BitVec 9) = t.pc) ∧
    (∃ s t : State, step s = .next t ∧ decode s.fetchWord = .sti 1 0 ∧ s.advance.pointer 0 = t.pc) ∧
    (∃ s t : State, step s = .next t ∧ decode s.fetchWord = .str 1 2 0b111111 ∧ s.advance.baseOff 2 0b111111 = t.pc) :=
  ⟨⟨machine 0x3002 .zero [(1, 0x1025)] [(0x3002, 0x3200)], _, rfl, by decide, by decide⟩,
   ⟨machine 0x3000 .zero [(1, 7)] [(0x3000, 0xB200), (0x3001, 0x3001)], _, rfl, by decide, by decide⟩,
   ⟨machine 0xFFFF .zero [(1, 7), (2, 1)] [(0xFFFF, 0x72BF)], _, rfl, by decide, by decide⟩⟩

theorem witness_StepKeepsInvariant :
    ∃ s t : State, s.Inv ∧ step s = .next t ∧ s.mem ≠ [] ∧ t.stopped = true :=
  ⟨State.reset.withFetchWord 16 0x8000, _, ⟨by decide, by decide, by decide⟩, rfl, by decide, rfl⟩

theorem witness_InvariantHoldsAtLaunch :
    ∃ p : LaunchParams, p.memInit.wf = true ∧ p.memInit = [(0, 0xFFFF), (65535, 1)] :=
  ⟨⟨[0x1021], [(0, 0xFFFF), (65535, 1)], #v[1, 2, 3, 4, 5, 6, 7, 8], .negative⟩, by decide, rfl⟩

theorem witness_EveryRunIsSound :
    (∃ s t : State, drive 1 s = .next t ∧ s.Inv ∧ t.stopped = true) ∧
    (∃ s t : State, drive 1 s = .next t ∧ s.Inv ∧ t.stopped = false) :=
  ⟨⟨State.reset.withFetchWord 16 0xF025, _, rfl, ⟨by decide, by decide, by decide⟩, rfl⟩,
   ⟨State.reset, _, rfl, ⟨by decide, by decide, by decide⟩, rfl⟩⟩

theorem witness_OnlyFlagUpdatingInstructionsChangeCond :
    (∃ (i : Instr) (s t : State), exec i s = .next t ∧ destination i = some 7) ∧
    (∃ (i : Instr) (s t : State), exec i s = .next t ∧ destination i = none ∧ i.opcode ≠ .trap) ∧
    (∃ s t : State, exec (.trap 0xF025) s = .next t) ∧
    (∃ (s t : State) (iw : Word), exec (.trap iw) s = .next t ∧ iw ≠ 0xF025) :=
  ⟨⟨.lea 7 0, State.reset, _, rfl, rfl⟩, ⟨.jsr 0, State.reset, _, rfl, rfl, by decide⟩, ⟨State.reset, _, rfl⟩,
   ⟨State.reset, _, 0xFF25, rfl, by decide⟩⟩

theorem witness_RegistersChangeOnlyAsNamed :
    (∃ (i : Instr) (s t : State), exec i s = .next t ∧ t.getReg 0 ≠ s.getReg 0) ∧
    (∃ (i : Instr) (s t : State), exec i s = .next t ∧ t.getReg 7 ≠ s.getReg 7 ∧ i.opcode = .jsr) :=
  ⟨⟨.addI 0 0 1, State.reset, _, rfl, by decide⟩, ⟨.jsrr 7, State.reset, _, rfl, by decide, rfl⟩⟩

theorem witness_CellsChangeOnlyByStoresAndHandler :
    ∃ s t : State, step s = .next t ∧ t.memRead 0x3001 ≠ s.memRead 0x3001 :=
  ⟨machine 0x3000 .zero [(0, 5)] [(0x3000, 0x3000)], _, rfl, by decide⟩

theorem witness_CondIsReadOnlyByBranch : ∃ i : Instr, i.opcode ≠ .br ∧ i.opcode ≠ .trap :=
  ⟨.res13 0xD000, by decide, by decide⟩

theorem witness_HandlerIsCalledOnlyByTrap :
    (∃ (i : Instr) (s t : State), exec i s = .next t ∧ i.opcode = .trap) ∧
    (∃ (i : Instr) (s t : State), exec i s = .next t ∧ i.legal = false) :=
  ⟨⟨.trap 0xF021, State.reset, _, rfl, rfl⟩, ⟨.res8 0x8000, State.reset, _, rfl, rfl⟩⟩

theorem witness_ReservedWordStopsTheMachine :
    (∃ s : State, s.stopped = false ∧ (s.memRead s.pc).extractLsb' 12 4 = 8#4) ∧
    (∃ s : State, s.stopped = false ∧ (s.memRead s.pc).extractLsb' 12 4 = 13#4) :=
  ⟨⟨machine 0 .zero [] [(0, 0x8FFF)], rfl, by decide⟩, ⟨machine 0xFFFF .zero [] [(0xFFFF, 0xDFFF)], rfl, by decide⟩⟩

theorem witness_RegisterReadsLastWrite : ∃ r q : Reg, q ≠ r := ⟨7, 0, by decide⟩

theorem witness_ConditionRule :
    (∃ v : Word, v = 0) ∧ (∃ v w : Word, 0x8000 ≤ v ∧ v = 0x8000 ∧ 0x8000 ≤ w ∧ w = 0xFFFF) ∧
    (∃ v w : Word, 0x0001 ≤ v ∧ v ≤ 0x7FFF ∧ v = 1 ∧ 0x0001 ≤ w ∧ w ≤ 0x7FFF ∧ w = 0x7FFF) :=
  ⟨⟨0, rfl⟩, ⟨0x8000, 0xFFFF, by decide⟩, ⟨1, 0x7FFF, by decide⟩⟩

theorem witness_MemoryReadsLastWrite :
    (∃ a b : Word, b ≠ a) ∧ (∃ m : Memory, m.wf = true ∧ m ≠ []) ∧
    (∃ m m' : Memory, m.wf = true ∧ m'.wf = true ∧ ∀ a : Word, m.read a = m'.read a) :=
  ⟨⟨0xFFFF, 0, by decide⟩, ⟨[(0, 1), (65535, 2)], by decide, by decide⟩,
   ⟨[(7, 1)], [(7, 1)], by decide, by decide, fun _ => rfl⟩⟩

theorem witness_LaunchState :
    (∃ p : LaunchParams, p.program.length = 0xD000) ∧
    (∃ p : LaunchParams, p.program.length ≤ 0xD000 ∧ 0 < p.program.length ∧ p.program.length - 1 < p.program.length) ∧
    (∃ (p : LaunchParams) (a b : Word), p.program.length ≤ 0xD000 ∧ a < 0x3000 ∧ a = 0x2FFF ∧
      0x3000 + p.program.length ≤ b.toNat ∧ b = 0x3002) :=
  ⟨⟨⟨List.replicate 0xD000 0, [], #v[0, 0, 0, 0, 0, 0, 0, 0], .zero⟩, List.length_replicate⟩,
   ⟨⟨[1, 2], [], #v[0, 0, 0, 0, 0, 0, 0, 0], .zero⟩, by decide⟩,
   ⟨⟨[1, 2], [], #v[0, 0, 0, 0, 0, 0, 0, 0], .zero⟩, 0x2FFF, 0x3002, by decide⟩⟩

theorem witness_BitReadersAgreeWithFields :
    (∃ n : Nat, n ≤ 15 ∧ n = 15) ∧ (∃ n : Nat, 15 < n ∧ n = 16) ∧ (∃ n k : Nat, n + k ≤ 16 ∧ k ≠ 0 ∧ n + k = 16) ∧
    (∃ n k : Nat, 16 < n + k ∧ n + k = 17) ∧ (∃ k : Nat, k = 0) :=
  ⟨⟨15, by decide⟩, ⟨16, by decide⟩, ⟨0, 16, by decide⟩, ⟨15, 2, by decide⟩, ⟨0, rfl⟩⟩

theorem witness_BitWritersForceOneBit :
    (∃ n m : Nat, n ≤ 15 ∧ n = 15 ∧ m ≠ n ∧ m = 14) ∧ (∃ n m : Nat, n ≤ 15 ∧ n = 0 ∧ m ≠ n) ∧
    (∃ n : Nat, 15 < n ∧ n = 16) :=
  ⟨⟨15, 14, by decide⟩, ⟨0, 1, by decide⟩, ⟨16, by decide⟩⟩

theorem witness_SignUtilities :
    (∃ k l : Nat, 1 ≤ k ∧ k ≤ 16 ∧ k = 1 ∧ 1 ≤ l ∧ l ≤ 16 ∧ l = 16) ∧ (∃ k l : Nat, k = 0 ∧ 16 < l ∧ l = 17) :=
  ⟨⟨1, 16, by decide⟩, ⟨0, 17, by decide⟩⟩

theorem witness_OperandRangesAreChecked : ∃ k l : Nat, 0 < k ∧ k = 1 ∧ 0 < l ∧ l = 11 := ⟨1, 11, by decide⟩

theorem witness_DecodeEncodeRoundTrip :
    (∃ i : Instr, i.wf = true ∧ i.legal = true ∧ i = .trap 0xFF25) ∧
    (∃ i : Instr, i.wf = true ∧ i.legal = true ∧ i.opcode ≠ .trap) :=
  ⟨⟨.trap 0xFF25, by decide⟩, ⟨.str 7 0 0b100000, by decide⟩⟩

theorem witness_EncodeDecodeRoundTrip :
    (∃ w : Word, canonicalWord w = true) ∧ (∃ w : Word, (decode w).legal = true ∧ canonicalWord w = false) ∧
    (∃ w : Word, (decode w).legal = false) :=
  ⟨⟨0xF0FF, by decide⟩, ⟨0xFFFF, by decide⟩, ⟨0x8FFF, by decide⟩⟩

theorem witness_IllegalWordsAreTheReservedOpcodes :
    (∃ w : Word, (decode w).legal = false ∧ w = 0x8000) ∧ (∃ w : Word, (decode w).legal = false ∧ w = 0xDFFF) :=
  ⟨⟨0x8000, by decide⟩, ⟨0xDFFF, by decide⟩⟩

theorem witness_FillerBitsAreIgnored :
    (∃ v w : Word, v.extractLsb' 12 4 = 1#4 ∧ v.getLsbD 5 = false ∧ v &&& 0xFFE7 = w &&& 0xFFE7 ∧ v ≠ w) ∧
    (∃ v w : Word, v.extractLsb' 12 4 = 5#4 ∧ v.getLsbD 5 = false ∧ v &&& 0xFFE7 = w &&& 0xFFE7 ∧ v ≠ w) ∧
    (∃ v w : Word, v.extractLsb' 12 4 = 9#4 ∧ v &&& 0xFFC0 = w &&& 0xFFC0 ∧ v ≠ w) ∧
    (∃ v w : Word, v.extractLsb' 12 4 = 12#4 ∧ v &&& 0xF1C0 = w &&& 0xF1C0 ∧ v ≠ w) ∧
    (∃ v w : Word, v.extractLsb' 12 4 = 4#4 ∧ v.getLsbD 11 = false ∧ v &&& 0xF9C0 = w &&& 0xF9C0 ∧ v ≠ w) ∧
    (∃ v w : Word, v.extractLsb' 12 4 = 15#4 ∧ v &&& 0xF0FF = w &&& 0xF0FF ∧ v ≠ w) :=
  ⟨⟨0x1283, 0x129B, by decide⟩, ⟨0x5642, 0x565A, by decide⟩, ⟨0x92BF, 0x9280, by decide⟩, ⟨0xC1C0, 0xCFFF, by decide⟩,
   ⟨0x41C0, 0x47FF, by decide⟩, ⟨0xF025, 0xFF25, by decide⟩⟩

/-- A literal operand of a `k`-bit field: its least and its greatest value, and the next one at either end. -/
def LitCases (k : Nat) (lo hi : Int) : Prop :=
  (∃ f : BitVec k, f.toInt = lo) ∧ (∃ f : BitVec k, f.toInt = hi) ∧ (∀ f : BitVec k, f.toInt ≠ lo - 1) ∧
    (∀ f : BitVec k, f.toInt ≠ hi + 1)

/-- A label operand of a `k`-bit field: unknown, at either end of the field, and just past either end. -/
def LabelCases (k : Nat) : Prop :=
  ∃ (tab : SymTab) (l : Text) (here a b c d : Nat), tab.lookup [] = none ∧ tab.lookup l = some a ∧
    (∃ f : BitVec k, f.toInt = (a : Int) - (here + 1)) ∧ (∃ f : BitVec k, f.toInt = (b : Int) - (here + 1)) ∧
    (∀ f : BitVec k, f.toInt ≠ (c : Int) - (here + 1)) ∧ (∀ f : BitVec k, f.toInt ≠ (d : Int) - (here + 1)) ∧
    [(l, b)].lookup l = some b ∧ [(l, c)].lookup l = some c ∧ [(l, d)].lookup l = some d

theorem litCases_5 : LitCases 5 (-16) 15 := by unfold LitCases; decide
theorem litCases_6 : LitCases 6 (-32) 31 := by unfold LitCases; decide
theorem litCases_9 : LitCases 9 (-256) 255 :=
  ⟨⟨BitVec.ofInt 9 (-256), by decide⟩, ⟨255, by decide⟩,
   fun f h => by have := BitVec.le_toInt f; omega, fun f h => by have := BitVec.toInt_lt (x := f); omega⟩
theorem labelCases_9 : LabelCases 9 :=
  ⟨[(['x'], 0x2F01)], ['x'], 0x3000, 0x2F01, 0x3100, 0x2F00, 0x3101, rfl, rfl,
   ⟨BitVec.ofInt 9 (-256), by decide⟩, ⟨255, by decide⟩,
   fun f h => by have := BitVec.le_toInt f; omega, fun f h => by have := BitVec.toInt_lt (x := f); omega, rfl, rfl, rfl⟩
theorem labelCases_11 : LabelCases 11 :=
  ⟨[(['x'], 0x2C01)], ['x'], 0x3000, 0x2C01, 0x3400, 0x2C00, 0x3401, rfl, rfl,
   ⟨BitVec.ofInt 11 (-1024), by decide⟩, ⟨1023, by decide⟩,
   fun f h => by have := BitVec.le_toInt f; omega, fun f h => by have := BitVec.toInt_lt (x := f); omega, rfl, rfl, rfl⟩

theorem witness_AddRegisterForm : ∃ iw : Word, iw.extractLsb' 12 4 = 1#4 ∧ iw.getLsbD 5 = false := ⟨0x1FDF, by decide⟩
theorem witness_AddImmediateForm : (∃ iw : Word, iw.extractLsb' 12 4 = 1#4 ∧ iw.getLsbD 5 = true) ∧ LitCases 5 (-16) 15 :=
  ⟨⟨0x1FFF, by decide⟩, litCases_5⟩
theorem witness_AndRegisterForm : ∃ iw : Word, iw.extractLsb' 12 4 = 5#4 ∧ iw.getLsbD 5 = false := ⟨0x5FDF, by decide⟩
theorem witness_AndImmediateForm : (∃ iw : Word, iw.extractLsb' 12 4 = 5#4 ∧ iw.getLsbD 5 = true) ∧ LitCases 5 (-16) 15 :=
  ⟨⟨0x5FFF, by decide⟩, litCases_5⟩
theorem witness_NotForm : ∃ iw : Word, iw.extractLsb' 12 4 = 9#4 := ⟨0x9FFF, by decide⟩
theorem witness_BranchForm : (∃ iw : Word, iw.extractLsb' 12 4 = 0#4) ∧ LitCases 9 (-256) 255 ∧ LabelCases 9 ∧
    Taken false false false .positive ∧ Taken true false false .negative ∧ Taken false true false .zero ∧
    Taken false false true .positive ∧ ¬ Taken true true false .positive ∧ ¬ Taken true false true .zero ∧
    ¬ Taken false true true .negative :=
  ⟨⟨0x0FFF, by decide⟩, litCases_9, labelCases_9, by simp [Taken]⟩
theorem witness_JumpForm : ∃ iw : Word, iw.extractLsb' 12 4 = 12#4 := ⟨0xCFFF, by decide⟩
theorem witness_CallLongForm : (∃ iw : Word, iw.extractLsb' 12 4 = 4#4 ∧ iw.getLsbD 11 = true) ∧ LabelCases 11 :=
  ⟨⟨0x4FFF, by decide⟩, labelCases_11⟩
theorem witness_CallRegisterForm : (∃ iw : Word, iw.extractLsb' 12 4 = 4#4 ∧ iw.getLsbD 11 = false) ∧
    (∃ r q : Reg, r = 7 ∧ q ≠ 7) :=
  ⟨⟨0x47FF, by decide⟩, ⟨7, 6, by decide⟩⟩
theorem witness_LoadForm : (∃ iw : Word, iw.extractLsb' 12 4 = 2#4) ∧ LabelCases 9 := ⟨⟨0x2FFF, by decide⟩, labelCases_9⟩
theorem witness_LoadIndirectForm : (∃ iw : Word, iw.extractLsb' 12 4 = 10#4) ∧ LabelCases 9 :=
  ⟨⟨0xAFFF, by decide⟩, labelCases_9⟩
theorem witness_LoadBaseOffsetForm : (∃ iw : Word, iw.extractLsb' 12 4 = 6#4) ∧ LitCases 6 (-32) 31 :=
  ⟨⟨0x6FFF, by decide⟩, litCases_6⟩
theorem witness_LoadEffectiveAddressForm : (∃ iw : Word, iw.extractLsb' 12 4 = 14#4) ∧ LabelCases 9 :=
  ⟨⟨0xEFFF, by decide⟩, labelCases_9⟩
theorem witness_StoreForm : (∃ iw : Word, iw.extractLsb' 12 4 = 3#4) ∧ LabelCases 9 := ⟨⟨0x3FFF, by decide⟩, labelCases_9⟩
theorem witness_StoreIndirectForm : (∃ iw : Word, iw.extractLsb' 12 4 = 11#4) ∧ LabelCases 9 :=
  ⟨⟨0xBFFF, by decide⟩, labelCases_9⟩
theorem witness_StoreBaseOffsetForm : (∃ iw : Word, iw.extractLsb' 12 4 = 7#4) ∧ LitCases 6 (-32) 31 :=
  ⟨⟨0x7FFF, by decide⟩, litCases_6⟩
theorem witness_TrapForm : (∃ iw : Word, iw.extractLsb' 12 4 = 15#4) ∧ (∃ iw : Word, iw ≠ 0xF025 ∧ iw = 0xFF25) :=
  ⟨⟨0xFFFF, by decide⟩, ⟨0xFF25, by decide⟩⟩
theorem witness_ReservedForms : (∃ iw : Word, iw.extractLsb' 12 4 = 8#4) ∧ (∃ iw : Word, iw.extractLsb' 12 4 = 13#4) :=
  ⟨⟨0x8FFF, by decide⟩, ⟨0xDFFF, by decide⟩⟩

theorem witness_ImageRoundTrip :
    (∃ p : List Word, p.length ≤ 0xD000 ∧ p.length = 0xD000) ∧ (∃ p : List Word, 0xD000 < p.length ∧ p.length = 0xD001) ∧
    (∃ b : List Byte, b.length % 2 = 1 ∧ b.length = 1) ∧
    (∃ (b : List Byte) (p : List Word), parseImage b = .ok p ∧ p = [0x10FF]) :=
  ⟨⟨List.replicate 0xD000 0, by rw [List.length_replicate], List.length_replicate⟩,
   ⟨List.replicate 0xD001 0, by rw [List.length_replicate]; decide, List.length_replicate⟩, ⟨[0x30], by decide⟩,
   ⟨[0x30, 0x00, 0x10, 0xFF], _, rfl, rfl⟩⟩

theorem witness_NormalizerIsIdempotent : ∃ (line : Text) (c d : Char),
    (normalizeLine line).head? = some c ∧ (normalizeLine line).getLast? = some d ∧ c ≠ d :=
  ⟨" \tbr loop ; back".toList, 'b', 'p', by decide⟩

theorem witness_LinesAreClassifiedByTheirEnd :
    classify "\t ; note".toList = .blank ∧ classify " a b: ; note".toList = .labelDef "a b".toList ∧
    classify "halt\r".toList = .code "halt".toList := by decide

theorem witness_LabelAddressCountsWords : ∃ (line : Text) (before after : List Text) (tab : SymTab),
    classify line = .labelDef ['x'] ∧ before.length = 3 ∧ pass1 1 0x3000 [] (before ++ line :: after) = .ok tab :=
  ⟨"x:".toList, ["a:".toList, "halt".toList, "; no word".toList], ["br x".toList],
   [(['a'], 0x3000), (['x'], 0x3001)], by decide, rfl, rfl⟩

theorem witness_OneWordPerInstructionLine : ∃ (source : Text) (bytes : List Byte), assembleImage source = .ok bytes :=
  ⟨"loop:\nbr loop".toList, [0x30, 0x00, 0x01, 0xFF], rfl⟩

theorem witness_BranchOffsetSymmetry :
    ∃ (tab : SymTab) (here target : Nat) (l : Text) (s : State) (f : BitVec 9) (g : BitVec 11),
      tab.lookup l = some target ∧ target < 65536 ∧ s.pc = BitVec.ofNat 16 (here + 1) ∧
      labelField 9 tab here l = .ok f ∧ labelField 11 tab here l = .ok g ∧ target = 0x2F02 :=
  ⟨[(['x'], 0x2F02)], 0x3001, 0x2F02, ['x'], machine 0x3002 .zero [] [], BitVec.ofInt 9 (-256), BitVec.ofInt 11 (-256),
   rfl, by decide, rfl, rfl, rfl, rfl⟩

theorem witness_FillEmitsTheLiteral :
    (∃ u v : Int, -32768 ≤ u ∧ u ≤ 65535 ∧ u = -32768 ∧ -32768 ≤ v ∧ v ≤ 65535 ∧ v = 65535) ∧
    (∃ u v : Int, u < -32768 ∧ u = -32769 ∧ 65535 < v ∧ v = 65536) :=
  ⟨⟨-32768, 65535, by decide⟩, ⟨-32769, 65536, by decide⟩⟩

theorem witness_PassOneRefusesOnlyDuplicates :
    (∃ (lines : List Text) (tab : SymTab), pass1 1 0x3000 [] lines = .ok tab ∧ lines.length = 2) ∧
    (∃ (lines : List Text) (e : AsmError), pass1 1 0x3000 [] lines = .error e ∧ e.line = 3) :=
  ⟨⟨["1st:".toList, "a-b:".toList], _, rfl, rfl⟩, ⟨["x:".toList, "halt".toList, "x:".toList], _, rfl, rfl⟩⟩

end Sys2Proof.Tests
end

namespace Sys2Proof.Machine

/-! ### A memory of given contents (`10_state.md` R27) -/

@[simp] theorem Memory.wf_ofFn (f : Nat → Word) : (Memory.ofFn f).wf = true :=
  Memory.wfFrom_ofFnFrom f 0 65536 (Nat.le_refl _)

@[simp] theorem Memory.read_ofFn (f : Nat → Word) (a : Word) : (Memory.ofFn f).read a = f a.toNat := by
  have hrange : 0 ≤ a.toNat ∧ a.toNat < 0 + 65536 := ⟨Nat.zero_le _, by omega⟩
  unfold Memory.read Memory.ofFn
  rw [Memory.lookup_ofFnFrom, if_pos hrange]

/-- Settles O19: the witness lists the cells of `f` by `Memory.ofFn`, taking each address as a number. -/
theorem everyMemInitIsAMemory : Obligations.EveryMemInitIsAMemory := by
  intro f
  refine ⟨Memory.ofFn fun n => f (BitVec.ofNat 16 n), Memory.wf_ofFn _, fun a => ?_⟩
  rw [Memory.read_ofFn, BitVec.ofNat_toNat, BitVec.setWidth_eq]

end Sys2Proof.Machine

namespace Sys2Proof.Machine

/-! ### What an instruction can do

Every meaning ends in one shared operation of Machine/Ops.lean. `Effect` names the operation for each kind of
instruction and `exec_effect` ties it to `exec`; the whole-machine statements below are case splits on it. -/

/-- `Effect s i t`: the shared operation by which the instruction `i` takes `s` to `t`. A branch that is not taken jumps
to the PC it has. -/
inductive Effect (s : State) : Instr → State → Prop
  | result {i : Instr} {dr : Reg} (v : Word) (hdest : destination i = some dr) : Effect s i (s.writeResult dr v)
  | jump {i : Instr} (target : Word) (hop : i.opcode = .br ∨ i.opcode = .jmp) : Effect s i (s.jump target)
  | call {i : Instr} (target : Word) (hop : i.opcode = .jsr) : Effect s i (s.link.jump target)
  | store {i : Instr} {a : Word} (v : Word) (haddr : storeAddress s i = some a) : Effect s i (s.memWrite a v)
  | trap (iw : Word) : Effect s (.trap iw) (s.callTrapHandler iw)
  | reserved {i : Instr} (iw : Word) (hres : i.legal = false) : Effect s i (s.raiseIllegalOpcode iw)

/-- Every instruction completes in every state, by the operation of its kind. -/
theorem exec_effect (i : Instr) (s : State) : ∃ t, exec i s = .next t ∧ Effect s i t := by
  cases i with
  | addR _ _ _ | addI _ _ _ | andR _ _ _ | andI _ _ _ | not _ _ | ld _ _ | ldi _ _ | ldr _ _ _ | lea _ _ =>
    exact ⟨_, rfl, .result _ rfl⟩
  | br n z p off9 =>
    refine ⟨_, exec_br n z p off9 s, ?_⟩
    split
    · exact .jump _ (.inl rfl)
    · exact .jump s.pc (.inl rfl)
  | jmp _ => exact ⟨_, rfl, .jump _ (.inr rfl)⟩
  | jsr _ | jsrr _ => exact ⟨_, rfl, .call _ rfl⟩
  | st _ _ | sti _ _ | str _ _ _ => exact ⟨_, rfl, .store _ rfl⟩
  | trap iw => exact ⟨_, rfl, .trap iw⟩
  | res8 iw | res13 iw => exact ⟨_, rfl, .reserved iw rfl⟩

theorem effect_of_exec {i : Instr} {s t : State} (h : exec i s = .next t) : Effect s i t := by
  obtain ⟨u, hu, he⟩ := exec_effect i s
  rw [h] at hu
  cases hu
  exact he

/-- A step that answers next ran, on a machine that was not stopped, the effect of the decoded word. -/
theorem effect_of_step {s t : State} (h : step s = .next t) :
    s.stopped = false ∧ ∃ u, Effect s.advance (decode s.fetchWord) u ∧ t = u.settle := by
  obtain ⟨hs, u, hu, ht⟩ := step_next_inv h
  exact ⟨hs, u, effect_of_exec hu, ht⟩

theorem step_completes {s : State} (hs : s.stopped = false) : ∃ t, step s = .next t := by
  obtain ⟨u, hu, -⟩ := exec_effect (decode s.fetchWord) s.advance
  exact ⟨u.settle, by rw [step_running hs, hu, settleResult_next]⟩

/-! ### The kinds of instructions -/

/-- R18: the forms with a destination are those of the seven flag-updating opcodes. -/
theorem destination_ne_none_iff (i : Instr) :
    destination i ≠ none ↔ i.opcode ∈ [.add, .and, .not, .ld, .ldi, .ldr, .lea] := by
  cases i <;> simp [destination, Instr.opcode]

theorem decode_of_opcode_trap {w : Word} (h : (decode w).opcode = .trap) : decode w = .trap w := by
  rw [opcode_decode] at h
  simp [decode, h]

/-- R180: a reserved form raises IllegalOpcode. -/
theorem eq_raise_of_reserved {i : Instr} {s t : State} (hres : i.legal = false) (h : exec i s = .next t) :
    ∃ iw, t = s.raiseIllegalOpcode iw := by
  cases i with
  | res8 iw | res13 iw => cases h; exact ⟨iw, rfl⟩
  | _ => cases hres

/-- R18: a form with a destination writes it and sets COND from the value written. -/
theorem eq_writeResult_of_destination {i : Instr} {dr : Reg} {s t : State} (hdest : destination i = some dr)
    (h : exec i s = .next t) : ∃ v, t = s.writeResult dr v := by
  cases i with
  | addR _ _ _ | addI _ _ _ | andR _ _ _ | andI _ _ _ | not _ _ | ld _ _ | ldi _ _ | ldr _ _ _ | lea _ _ =>
    cases hdest; cases h; exact ⟨_, rfl⟩
  | _ => cases hdest

/-! ### What an effect keeps -/

theorem Effect.wf_mem {s t : State} {i : Instr} (h : Effect s i t) (hwf : s.mem.wf = true) : t.mem.wf = true := by
  cases h with
  | result _ _ | jump _ _ | call _ _ | reserved _ _ => exact hwf
  | store v _ => exact State.wf_memWrite _ v hwf
  | trap iw => exact State.wf_callTrapHandler iw hwf

/-- Only an IllegalOpcode touches the stop mark or the record, and it answers ERROR (R180). -/
theorem Effect.marks {s t : State} {i : Instr} (h : Effect s i t) :
    (t.stopped = s.stopped ∧ t.raised = s.raised) ∨ t.status = .error := by
  cases h with
  | result _ _ | jump _ _ | call _ _ | store _ _ => exact .inl ⟨rfl, rfl⟩
  | trap iw => exact .inl ⟨s.callTrapHandler_stopped iw, s.callTrapHandler_raised iw⟩
  | reserved _ _ => exact .inr rfl

/-- R24: a legal instruction other than TRAP leaves the status and the stop mark alone. -/
theorem Effect.status_of_legal {s t : State} {i : Instr} (h : Effect s i t) (htrap : i.opcode ≠ .trap)
    (hlegal : i.legal = true) : t.status = s.status ∧ t.stopped = s.stopped := by
  cases h with
  | result _ _ | jump _ _ | call _ _ | store _ _ => exact ⟨rfl, rfl⟩
  | trap _ => exact absurd rfl htrap
  | reserved _ hres => rw [hlegal] at hres; cases hres

theorem Effect.cond_eq_of_no_destination {s t : State} {i : Instr} (h : Effect s i t) (hdest : destination i = none)
    (htrap : i.opcode ≠ .trap) : t.cond = s.cond := by
  cases h with
  | result _ hdest' => rw [hdest] at hdest'; cases hdest'
  | jump _ _ | call _ _ | store _ _ | reserved _ _ => rfl
  | trap _ => exact absurd rfl htrap

/-! ### The invariant, by a step and by a run (`10_state.md` R22, R25, R26) -/

/-- R25: after a step the stop mark is set exactly by a status other than CONTINUE. -/
theorem stopped_iff_of_step {s t : State} (h : step s = .next t) : t.stopped = true ↔ t.status ≠ .cont := by
  obtain ⟨hs, u, he, rfl⟩ := effect_of_step h
  rcases he.marks with ⟨hstop, -⟩ | herr
  · simp [hstop, hs]
  · simp [herr]

theorem inv_of_step {s t : State} (hinv : s.Inv) (h : step s = .next t) : t.Inv := by
  obtain ⟨hwf, -, -⟩ := hinv
  have hstop := stopped_iff_of_step h
  obtain ⟨-, u, he, rfl⟩ := effect_of_step h
  refine ⟨he.wf_mem hwf, hstop, fun hraised => ?_⟩
  rcases he.marks with ⟨-, hkept⟩ | herr
  · exact absurd hkept hraised
  · exact herr

/-- Settles O6: the memory and the marks are kept by the effect of each kind of instruction. -/
theorem stepKeepsInvariant : Obligations.StepKeepsInvariant := fun _ _ => inv_of_step

theorem drive_stopped {s : State} (hs : s.stopped = true) (fuel : Nat) : drive fuel s = .next s := by
  cases fuel <;> simp [drive, hs]

theorem drive_succ {s u : State} (hs : s.stopped = false) (hu : step s = .next u) (fuel : Nat) :
    drive (fuel + 1) s = drive fuel u := by
  simp [drive, hs, hu]

theorem run_succ_of_next {M : Host.Core} {s u : M.State} (h : M.step s = .next u) (k : Nat) :
    M.run (k + 1) s = M.run k u := by
  rw [Host.Core.run, h]

/-- Settles O8, by induction on the bound: a stopped machine is already the end, and a running one has a step
(`step_completes`) after which the rest of the run is sound. -/
theorem everyRunIsSound : Obligations.EveryRunIsSound := by
  intro fuel
  induction fuel with
  | zero => exact fun s => ⟨s, rfl, id, fun hs more => drive_stopped hs _, fun _ => rfl⟩
  | succ fuel ih =>
    intro s
    cases hs : s.stopped with
    | true =>
      exact ⟨s, drive_stopped hs _, id, fun _ _ => drive_stopped hs _, fun hrun => by rw [hs] at hrun; cases hrun⟩
    | false =>
      obtain ⟨u, hu⟩ := step_completes hs
      obtain ⟨t, hdrive, hinv, hend, hrun⟩ := ih u
      refine ⟨t, ?_, fun hs' => hinv (inv_of_step hs' hu), fun ht more => ?_, fun ht => ?_⟩
      · rw [drive_succ hs hu, hdrive]
      · rw [Nat.add_right_comm, drive_succ hs hu, hend ht more]
      · exact (run_succ_of_next (M := Sys2Proof.core) hu fuel).trans (hrun ht)

/-! ### The step and its status (`10_state.md` R23 to R25) -/

/-- Settles O2: the stop mark follows the status after every step, and the launch state has it clear. -/
theorem stoppedMachineTakesNoStep : Obligations.StoppedMachineTakesNoStep :=
  ⟨fun _ => step_stopped, fun _ _ => stopped_iff_of_step, fun _ => rfl, rfl⟩

/-- Settles O4: one clause for each kind of word, by the effect it has. -/
theorem statusOfEveryStep : Obligations.StatusOfEveryStep := by
  intro s t h
  obtain ⟨hs, u, hu, rfl⟩ := step_next_inv h
  refine ⟨fun ⟨htrap, hlegal⟩ => ?legal, fun hres => ?reserved, fun htrap => ?trap⟩
  case legal =>
    obtain ⟨hstatus, hstop⟩ := (effect_of_exec hu).status_of_legal htrap hlegal
    simp [hstatus, hstop, hs]
  case reserved =>
    obtain ⟨iw, rfl⟩ := eq_raise_of_reserved hres hu
    exact ⟨rfl, rfl⟩
  case trap =>
    rw [decode_of_opcode_trap htrap, exec_trap] at hu
    cases hu
    rfl

/-- R25: `settle` is the disjunction with the test of the status. -/
theorem State.settle_eq (s : State) : s.settle = { s with stopped := s.stopped || decide (s.status ≠ .cont) } := by
  simp [State.settle, bne, Bool.beq_eq_decide_eq]

/-- Settles O1: the stages of the step written out, one case for each outcome of the instruction. -/
theorem stepRunsDecodedInstruction : Obligations.StepRunsDecodedInstruction := by
  intro s hs
  rw [step_running hs]
  unfold State.fetchWord State.advance
  split
  · next t ht => rw [ht, settleResult_next, State.settle_eq]
  · next f hf => rw [hf, settleResult_fault]
  · next r hr => rw [hr, settleResult_refused]

/-! ### Registers and COND (`10_state.md` R11 to R19) -/

/-- Settles O15: the rules of `setReg`, and the launch state read field by field. -/
theorem registerReadsLastWrite : Obligations.RegisterReadsLastWrite := by
  refine ⟨fun s r q v => ⟨s.getReg_setReg_same r v, fun hq => ?_, rfl, rfl, fun _ => rfl⟩, fun _ _ => rfl⟩
  rw [State.getReg_setReg, if_neg hq]

/-- Settles O16: the three ranges are those of `isCondOf_condOf`. -/
theorem conditionRule : Obligations.ConditionRule := by
  intro s v
  obtain ⟨hzero, hneg, hpos⟩ := isCondOf_condOf v
  exact ⟨hzero.mpr, hneg.mpr, fun h1 h2 => hpos.mpr (by bv_omega), fun _ => rfl, rfl, fun _ => rfl⟩

/-- Settles O9: a destination comes with `writeResult`, whose COND is the condition of the value written. -/
theorem onlyFlagUpdatingInstructionsChangeCond : Obligations.OnlyFlagUpdatingInstructionsChangeCond := by
  intro i s t h
  refine ⟨destination_ne_none_iff i, fun dr hdest => ?flags, (effect_of_exec h).cond_eq_of_no_destination, ?halt,
    ?service⟩
  case flags =>
    obtain ⟨v, rfl⟩ := eq_writeResult_of_destination hdest h
    rw [State.getReg_writeResult, if_pos rfl]
    exact isCondOf_condOf v
  case halt =>
    rintro rfl
    cases h
    show (s.callTrapHandler wordHalt).cond = s.cond
    rw [State.callTrapHandler_halt]
  case service =>
    rintro iw rfl hiw
    cases h
    rw [State.callTrapHandler_other s iw hiw]

/-- Settles O10: in each kind of effect, the registers it can change. -/
theorem registersChangeOnlyAsNamed : Obligations.RegistersChangeOnlyAsNamed := by
  intro i s t r h hne
  cases effect_of_exec h with
  | result v hdest =>
    rw [State.getReg_writeResult, ne_eq, ite_eq_right_iff, not_forall] at hne
    obtain ⟨rfl, -⟩ := hne
    exact .inl hdest
  | call target hop =>
    rw [State.getReg_jump, State.getReg_link, ne_eq, ite_eq_right_iff, not_forall] at hne
    obtain ⟨rfl, -⟩ := hne
    exact .inr (.inl ⟨rfl, hop⟩)
  | trap iw =>
    refine .inr (.inr ⟨rfl, fun hhalt => hne ?_⟩)
    cases hhalt
    show (s.callTrapHandler wordHalt).getReg r = s.getReg r
    rw [State.callTrapHandler_halt]
    rfl
  | jump _ _ | store _ _ | reserved _ _ => exact absurd rfl hne

/-- R18, R19: a form with a destination overwrites COND unread. -/
theorem exec_withCond_of_destination {i : Instr} {dr : Reg} (s : State) (c : Cond) (h : destination i = some dr) :
    exec i { s with cond := c } = exec i s := by
  cases i with
  | addR _ _ _ | addI _ _ _ | andR _ _ _ | andI _ _ _ | not _ _ | ld _ _ | ldi _ _ | ldr _ _ _ | lea _ _ => rfl
  | _ => cases h

/-- R19: a form without a destination, BR and TRAP apart, carries COND along unread. -/
theorem exec_withCond_of_no_destination {i : Instr} {s t : State} (c : Cond) (hdest : destination i = none)
    (hbr : i.opcode ≠ .br) (htrap : i.opcode ≠ .trap) (h : exec i s = .next t) :
    exec i { s with cond := c } = .next { t with cond := c } := by
  cases i with
  | jmp _ | jsr _ | jsrr _ | st _ _ | sti _ _ | str _ _ _ | res8 _ | res13 _ => cases h; rfl
  | br _ _ _ _ => exact absurd rfl hbr
  | trap _ => exact absurd rfl htrap
  | _ => cases hdest

/-- The branch to the instruction after the next one, as BRn, is taken under NEGATIVE and not under ZERO. -/
theorem exec_brn_reads_cond (s : State) : ∃ t u,
    exec (.br true false false 1) { s with cond := .negative } = .next t ∧
    exec (.br true false false 1) { s with cond := .zero } = .next u ∧ t.pc ≠ u.pc := by
  refine ⟨_, _, exec_br .., exec_br .., ?_⟩
  show s.pc + 1 ≠ s.pc
  bv_omega

/-- Settles O12: the forms with a destination and those without are the two cases of the statement's `if`. -/
theorem condIsReadOnlyByBranch : Obligations.CondIsReadOnlyByBranch := by
  refine ⟨fun i s c hbr htrap => ?_, exec_brn_reads_cond⟩
  obtain ⟨t, ht, -⟩ := exec_effect i s
  refine ⟨t, ht, ?_⟩
  cases hdest : destination i with
  | none => rw [if_pos rfl, exec_withCond_of_no_destination c hdest hbr htrap ht]
  | some dr => rw [if_neg nofun, exec_withCond_of_destination s c hdest, ht]

end Sys2Proof.Machine

namespace Sys2Proof.Machine

/-! ### The canonical form is faithful (`20_memory.md` R31) -/

theorem Memory.wfFrom_cons {lo a : Nat} {v : Word} {rest : Memory} :
    Memory.wfFrom lo ((a, v) :: rest) = true ↔
      lo ≤ a ∧ a < 65536 ∧ v ≠ Memory.unlisted ∧ Memory.wfFrom (a + 1) rest = true := by
  simp [Memory.wfFrom, and_assoc]

@[simp] theorem Memory.lookup_cons_self (a : Nat) (v : Word) (rest : Memory) :
    Memory.lookup ((a, v) :: rest) a = v :=
  if_pos rfl

theorem Memory.lookup_cons_of_ne {a b : Nat} (v : Word) (rest : Memory) (h : b ≠ a) :
    Memory.lookup ((a, v) :: rest) b = Memory.lookup rest b :=
  if_neg h

theorem Memory.lookup_of_lt_of_wfFrom {m : Memory} {lo a : Nat} (hwf : m.wfFrom lo = true) (ha : a < lo) :
    m.lookup a = Memory.unlisted := by
  induction m generalizing lo with
  | nil => rfl
  | cons c rest ih =>
    obtain ⟨b, v⟩ := c
    obtain ⟨hlo, -, -, hrest⟩ := Memory.wfFrom_cons.mp hwf
    rw [Memory.lookup_cons_of_ne v rest (by omega)]
    exact ih hrest (by omega)

/-- A cell that a canonical memory does not read as unlisted is not before its first entry. -/
theorem Memory.head_le_of_lookup_ne_unlisted {lo a b : Nat} {v : Word} {rest : Memory}
    (hwf : Memory.wfFrom lo ((b, v) :: rest) = true) (hne : Memory.lookup ((b, v) :: rest) a ≠ Memory.unlisted) :
    b ≤ a := by
  obtain ⟨-, hb, hv, hrest⟩ := Memory.wfFrom_cons.mp hwf
  by_contra hlt
  exact hne (Memory.lookup_of_lt_of_wfFrom (Memory.wfFrom_cons.mpr ⟨le_rfl, hb, hv, hrest⟩) (by omega))

/-- Two canonical memories with the same contents have the same first entry, for each lists its first entry's cell, and
then the same rest. -/
theorem Memory.eq_of_lookup_eq {m m' : Memory} {lo : Nat} (hwf : m.wfFrom lo = true) (hwf' : m'.wfFrom lo = true)
    (h : ∀ a < 65536, m.lookup a = m'.lookup a) : m = m' := by
  induction m generalizing m' lo with
  | nil =>
    cases m' with
    | nil => rfl
    | cons d rest' =>
      obtain ⟨-, hlt, hne, -⟩ := Memory.wfFrom_cons.mp hwf'
      exact absurd ((Memory.lookup_cons_self ..).symm.trans (h _ hlt).symm) hne
  | cons c rest ih =>
    obtain ⟨a, v⟩ := c
    obtain ⟨-, ha, hv, hrest⟩ := Memory.wfFrom_cons.mp hwf
    have hlisted := h a ha
    rw [Memory.lookup_cons_self] at hlisted
    cases m' with
    | nil => exact absurd hlisted hv
    | cons d rest' =>
      obtain ⟨b, w⟩ := d
      obtain ⟨-, hb, hw, hrest'⟩ := Memory.wfFrom_cons.mp hwf'
      have hba : b ≤ a := Memory.head_le_of_lookup_ne_unlisted hwf' (hlisted ▸ hv)
      have hab : a ≤ b := Memory.head_le_of_lookup_ne_unlisted hwf (by rwa [h b hb, Memory.lookup_cons_self])
      obtain rfl : a = b := le_antisymm hab hba
      rw [Memory.lookup_cons_self] at hlisted
      have htail : ∀ x < 65536, Memory.lookup rest x = Memory.lookup rest' x := by
        intro x hx
        by_cases hxa : x = a
        · rw [Memory.lookup_of_lt_of_wfFrom hrest (by omega), Memory.lookup_of_lt_of_wfFrom hrest' (by omega)]
        · rw [← Memory.lookup_cons_of_ne v rest hxa, h x hx, Memory.lookup_cons_of_ne w rest' hxa]
      rw [hlisted, ih hrest hrest' htail]

theorem Memory.eq_of_read_eq {m m' : Memory} (hwf : m.wf = true) (hwf' : m'.wf = true)
    (h : ∀ a : Word, m.read a = m'.read a) : m = m' := by
  refine Memory.eq_of_lookup_eq hwf hwf' fun a ha => ?_
  have hread : m.lookup (BitVec.ofNat 16 a).toNat = m'.lookup (BitVec.ofNat 16 a).toNat := h (BitVec.ofNat 16 a)
  rwa [BitVec.toNat_ofNat, Nat.mod_eq_of_lt ha] at hread

/-- Settles O17: the rule of a read after a write, the canonical form kept by `write`, and its faithfulness. -/
theorem memoryReadsLastWrite : Obligations.MemoryReadsLastWrite := by
  refine ⟨fun s a v b => ⟨?same, fun hb => ?other, fun _ => rfl, rfl, rfl⟩, fun _ a v => Memory.wf_write a v,
    fun _ _ => Memory.eq_of_read_eq⟩
  case same => rw [State.memRead_memWrite, if_pos rfl]
  case other => rw [State.memRead_memWrite, if_neg hb]

/-! ### Stores, seen by the step (`20_memory.md` R41, R45) -/

/-- R41: a cell reads differently after an effect only as the one cell of a store, or by the trap handler. -/
theorem Effect.store_or_trap_of_memRead_ne {s t : State} {i : Instr} {a : Word} (h : Effect s i t)
    (hne : t.memRead a ≠ s.memRead a) : storeAddress s i = some a ∨ i.opcode = .trap := by
  cases h with
  | store v haddr =>
    rw [State.memRead_memWrite, ne_eq, ite_eq_right_iff, not_forall] at hne
    obtain ⟨rfl, -⟩ := hne
    exact .inl haddr
  | trap _ => exact .inr rfl
  | result _ _ | jump _ _ | call _ _ | reserved _ _ => exact absurd rfl hne

/-- Settles O11: neither `advance` nor `settle` touches memory, so the change is the effect's. -/
theorem cellsChangeOnlyByStoresAndHandler : Obligations.CellsChangeOnlyByStoresAndHandler := by
  intro s t a h hne
  obtain ⟨-, u, he, rfl⟩ := effect_of_step h
  rw [State.memRead_settle, ← State.memRead_advance s] at hne
  exact he.store_or_trap_of_memRead_ne hne

/-- R45: a step that writes `v` to the cell `a` leaves `v` to be fetched, when `a` is the new PC. -/
theorem fetchWord_of_step_memWrite {s t : State} {a v : Word} (h : step s = .next t)
    (hexec : exec (decode s.fetchWord) s.advance = .next (s.advance.memWrite a v)) (ha : a = t.pc) :
    t.fetchWord = v := by
  obtain ⟨-, u, hu, rfl⟩ := step_next_inv h
  obtain rfl := Host.Outcome.next.inj (hexec.symm.trans hu)
  rw [State.fetchWord, State.memRead_settle, State.memRead_memWrite, if_pos ha.symm]

/-- Settles O5: the meaning of each store is one `memWrite` of the register, which `advance` leaves as it was. -/
theorem storeIsSeenByTheNextFetch : Obligations.StoreIsSeenByTheNextFetch := by
  refine fun s t sr baseR off9 off6 h => ⟨fun hdec => ?st, fun hdec => ?sti, fun hdec => ?str⟩
  case st => exact fetchWord_of_step_memWrite h (hdec ▸ exec_st sr off9 s.advance)
  case sti => exact fetchWord_of_step_memWrite h (hdec ▸ exec_sti sr off9 s.advance)
  case str => exact fetchWord_of_step_memWrite h (hdec ▸ exec_str sr baseR off6 s.advance)

end Sys2Proof.Machine

namespace Sys2Proof

open Sys2Proof.Machine

/-! ### Encode, then decode (`30_encoding.md` R75 to R78) -/

/-- The opcode law of each constructor (Laws/PerInstr.lean), for any of them. -/
theorem fieldOPC_encode {i : Instr} {w : Word} (h : encode i = some w) : fieldOPC w = i.opcode.number := by
  cases i with
  | addR dr sr1 sr2 => exact Laws.EncodeOpcode.addR dr sr1 sr2 w h
  | addI dr sr1 imm5 => exact Laws.EncodeOpcode.addI dr sr1 imm5 w h
  | andR dr sr1 sr2 => exact Laws.EncodeOpcode.andR dr sr1 sr2 w h
  | andI dr sr1 imm5 => exact Laws.EncodeOpcode.andI dr sr1 imm5 w h
  | not dr sr1 => exact Laws.EncodeOpcode.not dr sr1 w h
  | br n z p off9 => exact Laws.EncodeOpcode.br n z p off9 w h
  | jmp baseR => exact Laws.EncodeOpcode.jmp baseR w h
  | jsr off11 => exact Laws.EncodeOpcode.jsr off11 w h
  | jsrr baseR => exact Laws.EncodeOpcode.jsrr baseR w h
  | ld dr off9 => exact Laws.EncodeOpcode.ld dr off9 w h
  | ldi dr off9 => exact Laws.EncodeOpcode.ldi dr off9 w h
  | ldr dr baseR off6 => exact Laws.EncodeOpcode.ldr dr baseR off6 w h
  | lea dr off9 => exact Laws.EncodeOpcode.lea dr off9 w h
  | st sr off9 => exact Laws.EncodeOpcode.st sr off9 w h
  | sti sr off9 => exact Laws.EncodeOpcode.sti sr off9 w h
  | str sr baseR off6 => exact Laws.EncodeOpcode.str sr baseR off6 w h
  | trap iw => exact Laws.EncodeOpcode.trap iw w h
  | res8 iw => exact Laws.EncodeOpcode.res8 iw w h
  | res13 iw => exact Laws.EncodeOpcode.res13 iw w h

theorem ofNumber_fieldOPC_encode {i : Instr} {w : Word} (h : encode i = some w) :
    Opcode.ofNumber (fieldOPC w) = i.opcode := by
  rw [fieldOPC_encode h, Opcode.ofNumber_number]

/-- R76: exactly the reserved forms have no encoding. -/
theorem encode_eq_none_iff (i : Instr) : encode i = none ↔ i.legal = false := by
  cases i <;> simp [encode, Instr.legal, Instr.opcode]

theorem exists_encode_of_legal {i : Instr} (h : i.legal = true) : ∃ w, encode i = some w := by
  rw [← Option.isSome_iff_exists, Option.isSome_iff_ne_none, ne_eq, encode_eq_none_iff, h]
  decide

/-- R78: each field is read back from its place; no other place of the format reaches into it. -/
theorem decode_encode {i : Instr} {w : Word} (h : encode i = some w) : decode w = i.canonical := by
  have hop := ofNumber_fieldOPC_encode h
  unfold decode
  rw [hop]
  cases i with
  | res8 iw | res13 iw => cases h
  | trap iw => cases h; rfl
  | _ =>
    cases h
    simp [Instr.opcode, Instr.canonical, fieldI, fieldL, fieldN, fieldZ, fieldP, fieldDR, fieldSR, fieldSR1, fieldSR2,
      fieldBaseR, fieldImm5, fieldOff6, fieldOff9, fieldOff11, field_or, bit_or, field_place_same,
      field_place_disjoint, bit_place_inside, bit_place_outside]

/-- R75: the encoder writes the canonical filler. -/
theorem canonicalWord_encode {i : Instr} {w : Word} (h : encode i = some w) : canonicalWord w = true := by
  have hop := ofNumber_fieldOPC_encode h
  unfold canonicalWord
  rw [hop]
  cases i with
  | res8 iw | res13 iw => cases h
  | _ =>
    cases h
    simp [Instr.opcode, fieldI, fieldL, field_or, bit_or, field_place_same,
      field_place_disjoint, bit_place_inside, bit_place_outside]

theorem canonical_of_opcode_ne_trap {i : Instr} (h : i.opcode ≠ .trap) : i.canonical = i := by
  cases i with
  | trap iw => exact absurd rfl h
  | _ => rfl

/-- R75, R78: the canonical TRAP of a service number. -/
theorem canonical_trap (iw : Word) :
    (Instr.trap iw).canonical = .trap (0xF000 ||| (iw.extractLsb' 0 8).setWidth 16) := by
  simp [Instr.canonical, place, fieldTrapvect8, field, Opcode.number]

/-- Settles O25: a legal form has an encoding, and `decode_encode` says what it decodes to. -/
theorem decodeEncodeRoundTrip : Obligations.DecodeEncodeRoundTrip := by
  intro i _ hlegal
  obtain ⟨w, hw⟩ := exists_encode_of_legal hlegal
  refine ⟨w, hw, decode_encode hw, ?_, canonical_of_opcode_ne_trap⟩
  rintro iw rfl
  exact canonical_trap iw

/-! ### Decode, then encode (`30_encoding.md` R79)

The encoder puts the fields of a format together from the top of the word down. `bitsFrom w lo` is what it has built of
`w` when it has come down to bit `lo`: each field, or each zero filler, takes it further down, to `w` itself at bit 0. -/

/-- The bits of `w` from `lo` on, with zeros below. -/
def bitsFrom (w : Word) (lo : Nat) : Word := place (field w lo (16 - lo)) lo

@[simp] theorem bitsFrom_zero (w : Word) : bitsFrom w 0 = w := by
  simp [bitsFrom, place, field]

theorem getLsbD_place_field (w : Word) {lo k i : Nat} (h : lo + k ≤ 16) :
    (place (field w lo k) lo).getLsbD i = (decide (lo ≤ i) && decide (i < lo + k) && w.getLsbD i) := by
  rw [getLsbD_place, field, BitVec.getLsbD_extractLsb']
  by_cases hlo : lo ≤ i
  · have hsame : lo + (i - lo) = i := by omega
    have hiff : (i < 16 ∧ i - lo < k) ↔ i < lo + k := by omega
    simp [hsame, hlo, ← hiff, Bool.and_assoc]
  · simp [hlo]

theorem getLsbD_bitsFrom (w : Word) {lo i : Nat} (h : lo ≤ 16) :
    (bitsFrom w lo).getLsbD i = (decide (lo ≤ i) && w.getLsbD i) := by
  rw [bitsFrom, getLsbD_place_field w (by omega)]
  by_cases hi : i < 16
  · have : i < lo + (16 - lo) := by omega
    simp [this]
  · simp [BitVec.getLsbD_of_ge w i (by omega)]

/-- The next field below joins the bits above it. -/
@[simp] theorem bitsFrom_or_place_field (w : Word) {hi lo k : Nat} (h : hi = lo + k) (h16 : hi ≤ 16) :
    bitsFrom w hi ||| place (field w lo k) lo = bitsFrom w lo := by
  refine BitVec.eq_of_getLsbD_eq fun i _ => ?_
  rw [BitVec.getLsbD_or, getLsbD_bitsFrom w h16, getLsbD_bitsFrom w (by omega), getLsbD_place_field w (by omega),
    ← Bool.and_or_distrib_right, ← Bool.decide_and, ← Bool.decide_or]
  have hiff : hi ≤ i ∨ lo ≤ i ∧ i < lo + k ↔ lo ≤ i := by omega
  rw [decide_eq_decide.mpr hiff]

/-- Zero filler below the bits above it needs no place. -/
theorem bitsFrom_eq_of_field_eq_zero (w : Word) {hi lo k : Nat} (h : hi = lo + k) (h16 : hi ≤ 16)
    (hz : field w lo k = 0) : bitsFrom w hi = bitsFrom w lo := by
  rw [← bitsFrom_or_place_field w h h16, hz]
  simp [place]

theorem field_one_eq_bit (w : Word) (n : Nat) : field w n 1 = BitVec.ofBool (bit w n) := by
  ext i hi
  simp [field, bit, Nat.lt_one_iff.mp hi]

/-- The encoder begins with the opcode. -/
theorem place_number_eq_bitsFrom (w : Word) : place (Opcode.ofNumber (fieldOPC w)).number 12 = bitsFrom w 12 := by
  rw [Opcode.number_ofNumber]
  rfl

theorem bitsFrom_or_place_one {w : Word} {n : Nat} (hn : n < 16) (h : bit w n = true) :
    bitsFrom w (n + 1) ||| place 1#1 n = bitsFrom w n := by
  rw [← bitsFrom_or_place_field w (lo := n) (k := 1) rfl hn, field_one_eq_bit, h]
  rfl

theorem bitsFrom_succ_of_bit_eq_false {w : Word} {n : Nat} (hn : n < 16) (h : bit w n = false) :
    bitsFrom w (n + 1) = bitsFrom w n :=
  bitsFrom_eq_of_field_eq_zero w rfl hn (by rw [field_one_eq_bit, h]; rfl)

/-- R79 on canonical words, one opcode at a time, down the format. -/
theorem encode_decode_of_canonicalWord {w : Word} (h : canonicalWord w = true) : encode (decode w) = some w := by
  have hop := place_number_eq_bitsFrom w
  unfold canonicalWord at h
  unfold decode
  cases ho : Opcode.ofNumber (fieldOPC w) <;> rw [ho] at hop h
  case res8 | res13 => cases h
  case ld | st | ldr | str | ldi | sti | lea =>
    simp [encode, hop, fieldDR, fieldSR, fieldBaseR, fieldOff9, fieldOff6]
  case br =>
    simp [encode, hop, fieldN, fieldZ, fieldP, fieldOff9, ← field_one_eq_bit]
  case add | and =>
    cases hI : fieldI w with
    | true =>
      have himm := bitsFrom_or_place_one (by decide) hI
      simp [encode, hop, fieldDR, fieldSR1, himm, fieldImm5]
    | false =>
      simp only [hI, Bool.false_or, beq_iff_eq] at h
      have hbit := bitsFrom_succ_of_bit_eq_false (by decide) hI
      have hfiller := bitsFrom_eq_of_field_eq_zero w (hi := 5) rfl (by decide) h
      simp [encode, hop, fieldDR, fieldSR1, hbit, hfiller, fieldSR2]
  case not =>
    rw [beq_iff_eq] at h
    simp [encode, hop, ← h, fieldDR, fieldSR1]
  case jmp =>
    rw [Bool.and_eq_true, beq_iff_eq, beq_iff_eq] at h
    obtain ⟨h11_9, h5_0⟩ := h
    have hhigh := bitsFrom_eq_of_field_eq_zero w (hi := 12) rfl (by decide) h11_9
    have hlow := bitsFrom_eq_of_field_eq_zero w (hi := 6) rfl (by decide) h5_0
    simp [encode, hop, hhigh, fieldBaseR, hlow]
  case jsr =>
    cases hL : fieldL w with
    | true =>
      have hlong := bitsFrom_or_place_one (by decide) hL
      simp [encode, hop, hlong, fieldOff11]
    | false =>
      simp only [hL, Bool.false_or, Bool.and_eq_true, beq_iff_eq] at h
      obtain ⟨h10_9, h5_0⟩ := h
      have hbit := bitsFrom_succ_of_bit_eq_false (by decide) hL
      have hhigh := bitsFrom_eq_of_field_eq_zero w (hi := 11) rfl (by decide) h10_9
      have hlow := bitsFrom_eq_of_field_eq_zero w (hi := 6) rfl (by decide) h5_0
      simp [encode, hop, hbit, hhigh, fieldBaseR, hlow]
  case trap =>
    rw [beq_iff_eq] at h
    have hfiller := bitsFrom_eq_of_field_eq_zero w (hi := 12) rfl (by decide) h
    simp [encode, hop, hfiller, fieldTrapvect8]

/-- Settles O26: a legal word goes to the encoding of its instruction, which is canonical (`canonicalWord_encode`). -/
theorem encodeDecodeRoundTrip : Obligations.EncodeDecodeRoundTrip := by
  refine fun w => ⟨encode_decode_of_canonicalWord, fun hlegal => ?_, (encode_eq_none_iff _).mpr⟩
  obtain ⟨v, hv⟩ := exists_encode_of_legal hlegal
  exact ⟨v, hv, canonicalWord_encode hv, decode_encode hv⟩

/-! ### The bit-field utilities (`30_encoding.md` R52 to R56) -/

theorem getBit?_eq {n : Nat} (w : Word) (h : n ≤ 15) : getBit? w n = some (if w.getLsbD n then 1 else 0) := by
  rw [getBit?, if_pos h, BitVec.getLsbD, Nat.testBit_eq_decide_div_mod_eq]
  rcases Nat.mod_two_eq_zero_or_one (w.toNat / 2 ^ n) with hbit | hbit <;> simp [hbit]

/-- Settles O20: a slice is a division and a remainder, as the utilities compute it. -/
theorem bitReadersAgreeWithFields : Obligations.BitReadersAgreeWithFields := by
  refine fun w n k => ⟨getBit?_eq w, fun hn => ?_, fun hk h0 => ?_, fun hk => ?_⟩
  · rw [getBit?, if_neg (by omega)]
  · rw [getBits?, if_pos ⟨hk, h0⟩, BitVec.extractLsb'_toNat, Nat.shiftRight_eq_div_pow]
  · rw [getBits?, if_neg (by omega)]

theorem getLsbD_one_shiftLeft {n : Nat} (h : n ≤ 15) (m : Nat) : (1#16 <<< n).getLsbD m = decide (n = m) :=
  (BitVec.getLsbD_twoPow n m).trans (by simp [Nat.lt_succ_of_le h])

/-- Settles O21: the mask of both writers is the word of the one bit `n`. -/
theorem bitWritersForceOneBit : Obligations.BitWritersForceOneBit := by
  refine fun w n m => ⟨fun hn => ⟨w ||| 1#16 <<< n, if_pos hn, ?set, fun hm => ?setOther, ?setAgain⟩,
    fun hn => ⟨w &&& ~~~(1#16 <<< n), if_pos hn, ?clear, fun hm => ?clearOther, ?clearAgain⟩,
    fun hn => ⟨if_neg (by omega), if_neg (by omega)⟩⟩
  case set => simp [getLsbD_one_shiftLeft hn]
  case setOther => simp [getLsbD_one_shiftLeft hn, hm.symm]
  case setAgain => rw [setBit?, if_pos hn, BitVec.or_assoc, BitVec.or_self]
  case clear => simp [getLsbD_one_shiftLeft hn]
  case clearOther => simpa [getLsbD_one_shiftLeft hn, hm.symm] using BitVec.lt_of_getLsbD
  case clearAgain => rw [clearBit?, if_pos hn, BitVec.and_assoc, BitVec.and_self]

/-- A field is widened by adding, if its sign bit is set, ones above it. -/
theorem sext_eq_ofNat {k : Nat} (h : k ≤ 16) (f : BitVec k) :
    sext f = BitVec.ofNat 16 (f.toNat + if f.msb = true then 65536 - 2 ^ k else 0) := by
  have hlt : f.toNat < 2 ^ 16 := f.isLt.trans_le (Nat.pow_le_pow_right (by decide) h)
  have hwide : (sext f).toNat = f.toNat + if f.msb = true then 65536 - 2 ^ k else 0 := by
    rw [sext, BitVec.toNat_signExtend, BitVec.toNat_setWidth, Nat.mod_eq_of_lt hlt]
  rw [← hwide, BitVec.ofNat_toNat, BitVec.setWidth_eq]

theorem msb_iff {k : Nat} (f : BitVec k) : f.msb = true ↔ f.toNat / 2 ^ (k - 1) % 2 = 1 := by
  rw [BitVec.msb_eq_getLsbD_last, BitVec.getLsbD, Nat.testBit_eq_decide_div_mod_eq, decide_eq_true_iff]

/-- R54, R70: the assembler's utility and the engine's widening agree. -/
theorem signExtend?_eq (w : Word) {k : Nat} (h1 : 1 ≤ k) (h16 : k ≤ 16) :
    signExtend? w k = some (sext (w.extractLsb' 0 k)) := by
  have hfield : w.toNat % 2 ^ k = (w.extractLsb' 0 k).toNat := by simp [BitVec.extractLsb'_toNat]
  simp only [signExtend?, if_pos (And.intro h1 h16), hfield, sext_eq_ofNat h16, msb_iff]
  split <;> rfl

theorem isNegative_iff (w : Word) : isNegative w = true ↔ 0x8000 ≤ w := by
  rw [isNegative, ← BitVec.msb_eq_getLsbD_last, BitVec.msb_eq_decide, decide_eq_true_iff, BitVec.le_def]
  rfl

theorem isPositive_iff (w : Word) : isPositive w = true ↔ w ≤ 0x7FFF := by
  rw [show isPositive w = !isNegative w from rfl, Bool.not_eq_true', ← Bool.not_eq_true, isNegative_iff]
  bv_omega

/-- Settles O22: the utility is the widening (`signExtend?_eq`), and the widening keeps the signed value. -/
theorem signUtilities : Obligations.SignUtilities := by
  refine ⟨fun w k => signExtend?_eq w, fun w k hk => ?refused, fun k f => BitVec.toInt_signExtend_of_le,
    fun w => ⟨isNegative_iff w, isPositive_iff w⟩⟩
  case refused => rw [signExtend?, if_neg (by omega)]

/-! ### Operand ranges (`30_encoding.md` R76, R77) -/

theorem fieldOfInt?_eq_some_iff {k : Nat} (h : 0 < k) (v : Int) (f : BitVec k) :
    fieldOfInt? k v = some f ↔ f.toInt = v := by
  have hk : (2 * 2 ^ (k - 1) : Int) = 2 ^ k := mul_pow_sub_one h.ne' 2
  constructor
  · intro hv
    obtain ⟨⟨hlo, hhi⟩, rfl⟩ := by simpa [fieldOfInt?] using hv
    exact BitVec.toInt_ofInt_eq_self h (by omega) (by omega)
  · rintro rfl
    rw [fieldOfInt?, if_pos ⟨BitVec.le_two_mul_toInt, BitVec.two_mul_toInt_lt⟩, BitVec.ofInt_toInt]

theorem fieldOfInt?_eq_none_iff {k : Nat} (h : 0 < k) (v : Int) :
    fieldOfInt? k v = none ↔ v < -(2 ^ (k - 1) : Int) ∨ (2 ^ (k - 1) : Int) ≤ v := by
  have hk : (2 * 2 ^ (k - 1) : Int) = 2 ^ k := mul_pow_sub_one h.ne' 2
  simp only [fieldOfInt?, ite_eq_right_iff, reduceCtorEq, imp_false]
  omega

theorem fieldOfNat?_eq_some_iff {k : Nat} (v : Nat) (f : BitVec k) : fieldOfNat? k v = some f ↔ f.toNat = v := by
  constructor
  · intro hv
    obtain ⟨hlt, rfl⟩ := by simpa [fieldOfNat?] using hv
    rw [BitVec.toNat_ofNat, Nat.mod_eq_of_lt hlt]
  · rintro rfl
    rw [fieldOfNat?, if_pos f.isLt, BitVec.ofNat_toNat, BitVec.setWidth_eq]

theorem fieldOfNat?_eq_none_iff (k v : Nat) : fieldOfNat? k v = none ↔ 2 ^ k ≤ v := by
  simp [fieldOfNat?]

/-- Settles O23: in range a field reads back its operand, and the refused operands are those out of range. -/
theorem operandRangesAreChecked : Obligations.OperandRangesAreChecked := fun k hk =>
  ⟨fieldOfInt?_eq_some_iff hk, fieldOfInt?_eq_none_iff hk, fieldOfNat?_eq_some_iff, fieldOfNat?_eq_none_iff k⟩

/-! ### The reserved opcodes (`30_encoding.md` R80) -/

theorem legal_eq_false_iff (i : Instr) : i.legal = false ↔ i.opcode = .res8 ∨ i.opcode = .res13 := by
  rw [Instr.legal, Bool.and_eq_false_iff, bne_eq_false_iff_eq, bne_eq_false_iff_eq]

theorem Opcode.ofNumber_eq_iff (op : BitVec 4) (o : Opcode) : Opcode.ofNumber op = o ↔ op = o.number := by
  constructor
  · rintro rfl
    exact (Opcode.number_ofNumber op).symm
  · rintro rfl
    exact Opcode.ofNumber_number o

theorem fieldOPC_toNat (w : Word) : (fieldOPC w).toNat = w.toNat / 4096 := by
  rw [fieldOPC, field, BitVec.extractLsb'_toNat, Nat.shiftRight_eq_div_pow]
  omega

theorem opcode_decode_eq_iff (w : Word) (o : Opcode) : (decode w).opcode = o ↔ w.toNat / 4096 = o.number.toNat := by
  rw [opcode_decode, Opcode.ofNumber_eq_iff, ← BitVec.toNat_inj, fieldOPC_toNat]

theorem legal_decode_eq_false_iff (w : Word) :
    (decode w).legal = false ↔ (0x8000 ≤ w ∧ w ≤ 0x8FFF) ∨ (0xD000 ≤ w ∧ w ≤ 0xDFFF) := by
  rw [legal_eq_false_iff, opcode_decode_eq_iff, opcode_decode_eq_iff]
  simp [Opcode.number, BitVec.le_def]
  omega

theorem decode_of_opcode_res8 {w : Word} (h : (decode w).opcode = .res8) : decode w = .res8 w := by
  rw [opcode_decode] at h
  simp [decode, h]

theorem decode_of_opcode_res13 {w : Word} (h : (decode w).opcode = .res13) : decode w = .res13 w := by
  rw [opcode_decode] at h
  simp [decode, h]

/-- R180: raising IllegalOpcode changes only the stop mark, the status and the record. -/
theorem raises_of_exec {i : Instr} {w : Word} (h : ∀ s, exec i s = .next (s.raiseIllegalOpcode w)) : Raises i w :=
  fun s => ⟨_, h s, rfl, rfl, rfl, rfl, fun _ => rfl, rfl, rfl, fun _ => rfl⟩

theorem raises_decode {w : Word} (h : (decode w).legal = false) : Raises (decode w) w := by
  rcases (legal_eq_false_iff _).mp h with h8 | h13
  · rw [decode_of_opcode_res8 h8]
    exact raises_of_exec (exec_res8 w)
  · rw [decode_of_opcode_res13 h13]
    exact raises_of_exec (exec_res13 w)

/-- Settles O27: the ranges are the words of opcode numbers 8 and 13. -/
theorem illegalWordsAreTheReservedOpcodes : Obligations.IllegalWordsAreTheReservedOpcodes :=
  fun w => ⟨legal_decode_eq_false_iff w, raises_decode, wf_decode w⟩

/-! ### Filler (`30_encoding.md` R66)

A field that lies within a mask is the same in two words that are equal under the mask. -/

theorem field_and (v m : Word) (lo k : Nat) : field (v &&& m) lo k = field v lo k &&& field m lo k := by
  ext i hi
  simp [field]

theorem bit_and (v m : Word) (n : Nat) : bit (v &&& m) n = (bit v n && bit m n) := by
  simp [bit]

theorem field_eq_of_masked_eq {v w m : Word} {lo k : Nat} (hm : field m lo k = BitVec.allOnes k)
    (h : v &&& m = w &&& m) : field v lo k = field w lo k := by
  have := congrArg (field · lo k) h
  simpa [field_and, hm] using this

theorem bit_eq_of_masked_eq {v w m : Word} {n : Nat} (hm : bit m n = true) (h : v &&& m = w &&& m) :
    bit v n = bit w n := by
  have := congrArg (bit · n) h
  simpa [bit_and, hm] using this

/-- ADD_R, AND_R. -/
theorem decode_eq_of_masked_eq_reg {v w : Word} (hop : fieldOPC v = 1#4 ∨ fieldOPC v = 5#4) (hI : fieldI v = false)
    (h : v &&& 0xFFE7 = w &&& 0xFFE7) : decode v = decode w := by
  have hOPC : fieldOPC v = fieldOPC w := field_eq_of_masked_eq (by decide) h
  have hI' : fieldI v = fieldI w := bit_eq_of_masked_eq (by decide) h
  have hDR : fieldDR v = fieldDR w := field_eq_of_masked_eq (by decide) h
  have hSR1 : fieldSR1 v = fieldSR1 w := field_eq_of_masked_eq (by decide) h
  have hSR2 : fieldSR2 v = fieldSR2 w := field_eq_of_masked_eq (by decide) h
  rcases hop with hop | hop <;> simp [decode, ← hOPC, hop, Opcode.ofNumber, ← hI', hI, hDR, hSR1, hSR2]

/-- NOT. -/
theorem decode_eq_of_masked_eq_not {v w : Word} (hop : fieldOPC v = 9#4) (h : v &&& 0xFFC0 = w &&& 0xFFC0) :
    decode v = decode w := by
  have hOPC : fieldOPC v = fieldOPC w := field_eq_of_masked_eq (by decide) h
  have hDR : fieldDR v = fieldDR w := field_eq_of_masked_eq (by decide) h
  have hSR1 : fieldSR1 v = fieldSR1 w := field_eq_of_masked_eq (by decide) h
  simp [decode, ← hOPC, hop, Opcode.ofNumber, hDR, hSR1]

/-- JMP. -/
theorem decode_eq_of_masked_eq_jmp {v w : Word} (hop : fieldOPC v = 12#4) (h : v &&& 0xF1C0 = w &&& 0xF1C0) :
    decode v = decode w := by
  have hOPC : fieldOPC v = fieldOPC w := field_eq_of_masked_eq (by decide) h
  have hBaseR : fieldBaseR v = fieldBaseR w := field_eq_of_masked_eq (by decide) h
  simp [decode, ← hOPC, hop, Opcode.ofNumber, hBaseR]

/-- JSRR. -/
theorem decode_eq_of_masked_eq_jsrr {v w : Word} (hop : fieldOPC v = 4#4) (hL : fieldL v = false)
    (h : v &&& 0xF9C0 = w &&& 0xF9C0) : decode v = decode w := by
  have hOPC : fieldOPC v = fieldOPC w := field_eq_of_masked_eq (by decide) h
  have hL' : fieldL v = fieldL w := bit_eq_of_masked_eq (by decide) h
  have hBaseR : fieldBaseR v = fieldBaseR w := field_eq_of_masked_eq (by decide) h
  simp [decode, ← hOPC, hop, Opcode.ofNumber, ← hL', hL, hBaseR]

/-- TRAP: the words differ, their canonical forms do not. -/
theorem canonical_decode_eq_of_masked_eq_trap {v w : Word} (hop : fieldOPC v = 15#4)
    (h : v &&& 0xF0FF = w &&& 0xF0FF) : (decode v).canonical = (decode w).canonical := by
  have hOPC : fieldOPC v = fieldOPC w := field_eq_of_masked_eq (by decide) h
  have hservice : fieldTrapvect8 v = fieldTrapvect8 w := field_eq_of_masked_eq (by decide) h
  simp [decode, ← hOPC, hop, Opcode.ofNumber, Instr.canonical, hservice]

/-- Settles O28: each mask covers the fields its form reads. -/
theorem fillerBitsAreIgnored : Obligations.FillerBitsAreIgnored := fun _ _ =>
  ⟨decode_eq_of_masked_eq_reg, decode_eq_of_masked_eq_not, decode_eq_of_masked_eq_jmp, decode_eq_of_masked_eq_jsrr,
    canonical_decode_eq_of_masked_eq_trap⟩

/-- Settles O24: eight fixed words, decoded. -/
theorem writtenOutWordsDecode : Obligations.WrittenOutWordsDecode := by
  unfold Obligations.WrittenOutWordsDecode
  decide

end Sys2Proof

namespace Sys2Proof.Machine

/-! ### The image and the loader (`30_encoding.md` R85, `70_reset_and_hazards.md` R201) -/

theorem length_flatMap_wordBytes (ws : List Word) : (ws.flatMap wordBytes).length = 2 * ws.length := by
  induction ws with
  | nil => rfl
  | cons w ws ih =>
    rw [List.flatMap_cons, List.length_append, ih, List.length_cons, show (wordBytes w).length = 2 from rfl]
    omega

theorem bytes_append (w : Word) : w.extractLsb' 8 8 ++ w.extractLsb' 0 8 = w := by
  rw [BitVec.extractLsb'_append_extractLsb'_eq_extractLsb' (by rfl), BitVec.extractLsb'_eq_self]

theorem wordBytes_append (hi lo : Byte) : wordBytes (hi ++ lo) = [hi, lo] := by
  rw [wordBytes, BitVec.extractLsb'_append_eq_left, BitVec.extractLsb'_append_eq_right]

theorem wordsOfBytes_flatMap (ws : List Word) : wordsOfBytes (ws.flatMap wordBytes) = some ws := by
  induction ws with
  | nil => rfl
  | cons w ws ih => simp [wordBytes, wordsOfBytes, ih, bytes_append]

/-- Whatever is cut into words is the bytes of these words. -/
theorem eq_flatMap_of_wordsOfBytes {bytes : List Byte} {ws : List Word} (h : wordsOfBytes bytes = some ws) :
    bytes = ws.flatMap wordBytes := by
  induction bytes using wordsOfBytes.induct generalizing ws with
  | case1 => cases h; rfl
  | case2 b => cases h
  | case3 hi lo rest ih =>
    obtain ⟨vs, hvs, rfl⟩ := by simpa [wordsOfBytes] using h
    rw [List.flatMap_cons, wordBytes_append, ← ih hvs]
    rfl

theorem wordsOfBytes_eq_none_of_odd {bytes : List Byte} (h : bytes.length % 2 = 1) : wordsOfBytes bytes = none := by
  rw [Option.eq_none_iff_forall_ne_some]
  intro ws hws
  rw [eq_flatMap_of_wordsOfBytes hws, length_flatMap_wordBytes] at h
  omega

theorem wordsOfBytes_imageBytes (program : List Word) :
    wordsOfBytes (imageBytes program) = some (Config.origin :: program) :=
  wordsOfBytes_flatMap _

theorem parseImage_imageBytes (program : List Word) :
    parseImage (imageBytes program) = if 0xD000 < program.length then .error .tooLong else .ok program := by
  simp [parseImage, wordsOfBytes_imageBytes]

theorem eq_imageBytes_of_parseImage {bytes : List Byte} {program : List Word} (h : parseImage bytes = .ok program) :
    bytes = imageBytes program := by
  unfold parseImage at h
  split at h
  · cases h
  · cases h
  · next origin words hws =>
    split at h
    · cases h
    · next horigin =>
      split at h
      · cases h
      · cases h
        rw [eq_flatMap_of_wordsOfBytes hws, not_not.mp horigin, imageBytes]

/-- Settles O48: `wordBytes` and `wordsOfBytes` undo each other, so the loader's tests are on the words of the image. -/
theorem imageRoundTrip : Obligations.ImageRoundTrip := by
  refine ⟨fun program => ⟨length_flatMap_wordBytes _, rfl, fun hfits => ?_, fun hlong => ?_⟩, fun bytes hodd => ?_,
    fun bytes program => eq_imageBytes_of_parseImage⟩
  · rw [parseImage_imageBytes, if_neg (Nat.not_lt.mpr hfits)]
  · rw [parseImage_imageBytes, if_pos hlong]
  · rw [parseImage, wordsOfBytes_eq_none_of_odd hodd]

end Sys2Proof.Machine

namespace Sys2Proof.Machine

/-! ### What the rules of the forms are made of (`40_alu.md` to `43_store.md`)

Decoding, encoding, text and effect: for each part of a form's rule, the lemma that the forms with that part share. -/

/-- R18: an instruction whose meaning is one `writeResult` changes its destination, COND, and nothing else. -/
theorem writesResult_of_exec {i : Instr} {dr : Reg} {v : State → Word}
    (h : ∀ s, exec i s = .next (s.writeResult dr (v s))) : WritesResult i dr v := by
  refine fun s => ⟨_, h s, ?result, isCondOf_condOf (v s), fun q hq => ?others, rfl, fun _ => rfl, rfl, rfl, rfl, rfl⟩
  case result => rw [State.getReg_writeResult, if_pos rfl]
  case others => rw [State.getReg_writeResult, if_neg hq]

theorem fitField_toInt {k : Nat} (hk : 0 < k) (f : BitVec k) : fitField k f.toInt = .ok f := by
  rw [fitField, (fieldOfInt?_eq_some_iff hk _ f).mpr rfl]

/-- R77: a value that no field holds is refused. -/
theorem fitField_eq_error {k : Nat} (hk : 0 < k) {v : Int} (h : ∀ f : BitVec k, f.toInt ≠ v) :
    fitField k v = .error .operandOutOfRange := by
  have hnone : fieldOfInt? k v = none :=
    Option.eq_none_iff_forall_ne_some.mpr fun f hf => h f ((fieldOfInt?_eq_some_iff hk v f).mp hf)
  rw [fitField, hnone]

/-- R158: a form whose literal goes through `fitField` takes exactly the values of its field. -/
theorem spellsLit_of_fitField {mnemonic : String} {m : Mnemonic} {k : Nat} {ops : Int → List Operand}
    {i : BitVec k → Instr} (hk : 0 < k) (hm : parseMnemonic mnemonic.toList = some m)
    (hops : ∀ tab here v, assembleOps tab here m (ops v) = do let f ← fitField k v; emit (i f)) :
    SpellsLit mnemonic k ops i := by
  refine fun tab here v => ⟨m, hm, ?fits, fun hv => ?refused⟩
  case fits =>
    rintro f rfl
    rw [hops, fitField_toInt hk]
    rfl
  case refused =>
    rw [hops, fitField_eq_error hk hv]
    rfl

/-! ### Arithmetic and logic (`40_alu.md` R100 to R104) -/

/-- The slices of ADD_R and AND_R: the bits 5 to 3, where nothing is placed, are zero. -/
theorem slices_of_register_format (op : BitVec 4) (dr sr1 sr2 : Reg) :
    ∀ slice ∈ [(12, 4, op.toNat), (9, 3, dr.toNat), (6, 3, sr1.toNat), (5, 1, 0), (3, 2, 0), (0, 3, sr2.toNat)],
      ((place op 12 ||| place dr 9 ||| place sr1 6 ||| place sr2 0).extractLsb' slice.1 slice.2.1).toNat =
        slice.2.2 := by
  simp [extractLsb'_eq_field, field_or, field_place_same, field_place_disjoint]

/-- The slices of ADD_I and AND_I. -/
theorem slices_of_immediate_format (op : BitVec 4) (dr sr1 : Reg) (imm5 : BitVec 5) :
    ∀ slice ∈ [(12, 4, op.toNat), (9, 3, dr.toNat), (6, 3, sr1.toNat), (5, 1, 1), (0, 5, imm5.toNat)],
      ((place op 12 ||| place dr 9 ||| place sr1 6 ||| place 1#1 5 ||| place imm5 0).extractLsb'
        slice.1 slice.2.1).toNat = slice.2.2 := by
  simp [extractLsb'_eq_field, field_or, field_place_same, field_place_disjoint]

/-- The encoding of NOT, with the ones of its filler (R75). -/
theorem encodesAs_not (dr sr1 : Reg) :
    EncodesAs (.not dr sr1) [(12, 4, 0b1001), (9, 3, dr.toNat), (6, 3, sr1.toNat), (0, 6, 0b111111)] := by
  refine ⟨_, rfl, ?_⟩
  simp [extractLsb'_eq_field, field_or, field_place_same, field_place_disjoint, Opcode.number]

/-- R65: the words of opcode 1, told apart by bit I. -/
theorem decode_of_fieldOPC_add {iw : Word} (h : fieldOPC iw = Opcode.add.number) :
    decode iw = if fieldI iw then .addI (fieldDR iw) (fieldSR1 iw) (fieldImm5 iw)
      else .addR (fieldDR iw) (fieldSR1 iw) (fieldSR2 iw) := by
  rw [decode, (Opcode.ofNumber_eq_iff _ _).mpr h]

/-- R65: the words of opcode 5, told apart by bit I. -/
theorem decode_of_fieldOPC_and {iw : Word} (h : fieldOPC iw = Opcode.and.number) :
    decode iw = if fieldI iw then .andI (fieldDR iw) (fieldSR1 iw) (fieldImm5 iw)
      else .andR (fieldDR iw) (fieldSR1 iw) (fieldSR2 iw) := by
  rw [decode, (Opcode.ofNumber_eq_iff _ _).mpr h]

theorem decode_of_fieldOPC_not {iw : Word} (h : fieldOPC iw = Opcode.not.number) :
    decode iw = .not (fieldDR iw) (fieldSR1 iw) := by
  rw [decode, (Opcode.ofNumber_eq_iff _ _).mpr h]

/-- Settles O29: the effect is `exec_addR`, one `writeResult` of the sum. -/
theorem addRegisterForm : Obligations.AddRegisterForm := by
  refine ⟨fun iw hop hI => ?decoded, fun dr sr1 sr2 => ⟨⟨_, rfl, ?encoded⟩, fun _ _ => ⟨.add, rfl, rfl⟩, ?effect⟩⟩
  case decoded => exact (decode_of_fieldOPC_add hop).trans (if_neg (ne_true_of_eq_false hI))
  case encoded => exact slices_of_register_format Opcode.add.number dr sr1 sr2
  case effect => exact writesResult_of_exec (exec_addR dr sr1 sr2)

/-- Settles O30: widening a field by its sign is, by definition, taking the word of its signed value. -/
theorem addImmediateForm : Obligations.AddImmediateForm := by
  refine ⟨fun iw hop hI => ?decoded, fun dr sr1 => ⟨?spelled, fun imm5 => ⟨⟨_, rfl, ?encoded⟩, ?effect⟩⟩⟩
  case decoded => exact (decode_of_fieldOPC_add hop).trans (if_pos hI)
  case spelled => exact spellsLit_of_fitField (m := .add) (by decide) rfl fun _ _ _ => rfl
  case encoded => exact slices_of_immediate_format Opcode.add.number dr sr1 imm5
  case effect => exact writesResult_of_exec (exec_addI dr sr1 imm5)

/-- Settles O31: the effect is `exec_andR`, one `writeResult` of the bitwise AND. -/
theorem andRegisterForm : Obligations.AndRegisterForm := by
  refine ⟨fun iw hop hI => ?decoded, fun dr sr1 sr2 => ⟨⟨_, rfl, ?encoded⟩, fun _ _ => ⟨.and, rfl, rfl⟩, ?effect⟩⟩
  case decoded => exact (decode_of_fieldOPC_and hop).trans (if_neg (ne_true_of_eq_false hI))
  case encoded => exact slices_of_register_format Opcode.and.number dr sr1 sr2
  case effect => exact writesResult_of_exec (exec_andR dr sr1 sr2)

/-- Settles O32: the immediate is widened as in ADD_I, before the AND. -/
theorem andImmediateForm : Obligations.AndImmediateForm := by
  refine ⟨fun iw hop hI => ?decoded, fun dr sr1 => ⟨?spelled, fun imm5 => ⟨⟨_, rfl, ?encoded⟩, ?effect⟩⟩⟩
  case decoded => exact (decode_of_fieldOPC_and hop).trans (if_pos hI)
  case spelled => exact spellsLit_of_fitField (m := .and) (by decide) rfl fun _ _ _ => rfl
  case encoded => exact slices_of_immediate_format Opcode.and.number dr sr1 imm5
  case effect => exact writesResult_of_exec (exec_andI dr sr1 imm5)

/-- Settles O33: inverting every bit is subtracting from the word of sixteen ones. -/
theorem notForm : Obligations.NotForm := by
  refine ⟨fun iw => decode_of_fieldOPC_not, fun dr sr1 =>
    ⟨encodesAs_not dr sr1, fun _ _ => ⟨.not, rfl, rfl⟩, writesResult_of_exec fun s => ?effect⟩⟩
  case effect =>
    rw [exec_not, ← BitVec.allOnes_sub_eq_not]
    rfl

end Sys2Proof.Machine

namespace Sys2Proof.Machine

/-! ### Control transfer (`41_control.md` R110 to R113) -/

/-- An instruction whose meaning is one `jump` changes PC and nothing else. -/
theorem jumps_of_exec {i : Instr} {target : State → Word} (h : ∀ s, exec i s = .next (s.jump (target s))) :
    Jumps i target :=
  fun s => ⟨_, h s, rfl, fun _ => rfl, rfl, fun _ => rfl, rfl, rfl, rfl, rfl⟩

/-- An instruction whose meaning is the link and then one `jump` changes R7, PC and nothing else. -/
theorem calls_of_exec {i : Instr} {target : State → Word} (h : ∀ s, exec i s = .next (s.link.jump (target s))) :
    Calls i target := by
  refine fun s => ⟨_, h s, ?linked, rfl, fun q hq => ?others, rfl, fun _ => rfl, rfl, rfl, rfl, rfl⟩
  case linked => rw [State.getReg_jump, State.getReg_link, if_pos rfl]
  case others => rw [State.getReg_jump, State.getReg_link, if_neg hq]

theorem labelField_of_lookup_none {k : Nat} {tab : SymTab} {here : Nat} {l : Text} (h : tab.lookup l = none) :
    labelField k tab here l = .error (.unresolvedLabel l) := by
  rw [labelField, h]

/-- R155: a known label is a literal, its address relative to the address after the line's own. -/
theorem labelField_of_lookup {k : Nat} {tab : SymTab} {here target : Nat} {l : Text}
    (h : tab.lookup l = some target) : labelField k tab here l = fitField k ((target : Int) - (here + 1)) := by
  rw [labelField, h]
  rfl

/-- R155: a form whose label goes through `labelField` takes exactly the known labels within reach of its field. -/
theorem spellsLabel_of_labelField {mnemonic : String} {m : Mnemonic} {k : Nat} {ops : Text → List Operand}
    {i : BitVec k → Instr} (hk : 0 < k) (hm : parseMnemonic mnemonic.toList = some m)
    (hops : ∀ tab here l, assembleOps tab here m (ops l) = do let f ← labelField k tab here l; emit (i f)) :
    SpellsLabel mnemonic k ops i := by
  refine fun tab here l => ⟨m, hm, fun hl => ?unknown, fun target hl => ⟨fun f hf => ?fits, fun hfar => ?refused⟩⟩
  case unknown =>
    rw [hops, labelField_of_lookup_none hl]
    rfl
  case fits =>
    rw [hops, labelField_of_lookup hl, ← hf, fitField_toInt hk]
    rfl
  case refused =>
    rw [hops, labelField_of_lookup hl, fitField_eq_error hk hfar]
    rfl

theorem decode_of_fieldOPC_br {iw : Word} (h : fieldOPC iw = Opcode.br.number) :
    decode iw = .br (fieldN iw) (fieldZ iw) (fieldP iw) (fieldOff9 iw) := by
  rw [decode, (Opcode.ofNumber_eq_iff _ _).mpr h]

theorem decode_of_fieldOPC_jmp {iw : Word} (h : fieldOPC iw = Opcode.jmp.number) : decode iw = .jmp (fieldBaseR iw) := by
  rw [decode, (Opcode.ofNumber_eq_iff _ _).mpr h]

/-- R65: the words of opcode 4, told apart by bit L. -/
theorem decode_of_fieldOPC_jsr {iw : Word} (h : fieldOPC iw = Opcode.jsr.number) :
    decode iw = if fieldL iw then .jsr (fieldOff11 iw) else .jsrr (fieldBaseR iw) := by
  rw [decode, (Opcode.ofNumber_eq_iff _ _).mpr h]

theorem encodesAs_br (n z p : Bool) (off9 : BitVec 9) :
    EncodesAs (.br n z p off9)
      [(12, 4, 0b0000), (11, 1, n.toNat), (10, 1, z.toNat), (9, 1, p.toNat), (0, 9, off9.toNat)] := by
  refine ⟨_, rfl, ?_⟩
  simp [extractLsb'_eq_field, field_or, field_place_same, field_place_disjoint, Opcode.number]

/-- The zeros above and below the base register are filler (R75). -/
theorem encodesAs_jmp (baseR : Reg) :
    EncodesAs (.jmp baseR) [(12, 4, 0b1100), (9, 3, 0b000), (6, 3, baseR.toNat), (0, 6, 0b000000)] := by
  refine ⟨_, rfl, ?_⟩
  simp [extractLsb'_eq_field, field_or, field_place_same, field_place_disjoint, Opcode.number]

theorem encodesAs_jsr (off11 : BitVec 11) :
    EncodesAs (.jsr off11) [(12, 4, 0b0100), (11, 1, 1), (0, 11, off11.toNat)] := by
  refine ⟨_, rfl, ?_⟩
  simp [extractLsb'_eq_field, field_or, field_place_same, field_place_disjoint, Opcode.number]

/-- Bit L is clear, and so is the filler around the base register (R75). -/
theorem encodesAs_jsrr (baseR : Reg) :
    EncodesAs (.jsrr baseR)
      [(12, 4, 0b0100), (11, 1, 0), (9, 2, 0b00), (6, 3, baseR.toNat), (0, 6, 0b000000)] := by
  refine ⟨_, rfl, ?_⟩
  simp [extractLsb'_eq_field, field_or, field_place_same, field_place_disjoint, Opcode.number]

/-- R160: the eight spellings of the branch, one for each mask. -/
theorem parseMnemonic_branchSpelling (n z p : Bool) :
    parseMnemonic (branchSpelling n z p).toList = some (.br n z p) := by
  revert n z p
  decide

/-- R110: the engine's test of the mask is the rule's. -/
theorem branchTaken_iff (n z p : Bool) (c : Cond) : branchTaken n z p c = true ↔ Taken n z p c := by
  simp [branchTaken, Taken, or_assoc, and_assoc]

/-- R110: a branch jumps, when it is not taken to the PC it has. -/
theorem jumps_br (n z p : Bool) (off9 : BitVec 9) :
    Jumps (.br n z p off9) fun s => if branchTaken n z p s.cond then s.pc + BitVec.ofInt 16 off9.toInt else s.pc := by
  refine jumps_of_exec fun s => ?_
  rw [exec_br]
  split
  · rfl
  · rfl

/-- Settles O34: a branch is one `jump`, its target chosen by the test that `branchTaken_iff` reads as the rule's. -/
theorem branchForm : Obligations.BranchForm := by
  refine ⟨fun _ => decode_of_fieldOPC_br, fun n z p => ⟨?literal, ?label, fun off9 =>
    ⟨encodesAs_br n z p off9, fun s => ?effect⟩⟩⟩
  case literal => exact spellsLit_of_fitField (by decide) (parseMnemonic_branchSpelling n z p) fun _ _ _ => rfl
  case label => exact spellsLabel_of_labelField (by decide) (parseMnemonic_branchSpelling n z p) fun _ _ _ => rfl
  case effect =>
    obtain ⟨t, ht, hpc, hframe⟩ := jumps_br n z p off9 s
    refine ⟨t, ht, fun htaken => ?_, fun hnot => ?_, hframe⟩
    · exact hpc.trans (if_pos ((branchTaken_iff ..).mpr htaken))
    · exact hpc.trans (if_neg (mt (branchTaken_iff ..).mp hnot))

/-- Settles O35: the effect is `exec_jmp`, one `jump` to the word of the base register. -/
theorem jumpForm : Obligations.JumpForm :=
  ⟨fun _ => decode_of_fieldOPC_jmp, fun baseR =>
    ⟨encodesAs_jmp baseR, fun _ _ => ⟨.jmp, rfl, rfl⟩, jumps_of_exec (exec_jmp baseR)⟩⟩

/-- Settles O36: the target is reckoned from the PC that the link saves. -/
theorem callLongForm : Obligations.CallLongForm := by
  refine ⟨fun iw hop hL => ?decoded, ?spelled, fun off11 => ⟨encodesAs_jsr off11, ?effect⟩⟩
  case decoded => exact (decode_of_fieldOPC_jsr hop).trans (if_pos hL)
  case spelled => exact spellsLabel_of_labelField (m := .jsr) (by decide) rfl fun _ _ _ => rfl
  case effect => exact calls_of_exec (exec_jsr off11)

/-- Settles O37: the base register is read after the link (`State.getReg_link`), so R7 reads as the incremented PC. -/
theorem callRegisterForm : Obligations.CallRegisterForm := by
  refine ⟨fun iw hop hL => ?decoded, fun baseR =>
    ⟨encodesAs_jsrr baseR, fun _ _ => ⟨.jsrr, rfl, rfl⟩, calls_of_exec fun s => ?effect⟩⟩
  case decoded => exact (decode_of_fieldOPC_jsr hop).trans (if_neg (ne_true_of_eq_false hL))
  case effect => rw [exec_jsrr, State.getReg_link]

end Sys2Proof.Machine

namespace Sys2Proof.Machine

/-! ### Loads (`42_load.md` R120 to R123) -/

/-- The slices of a form with a register and a 9-bit offset: LD, LDI and LEA, and the stores ST and STI. -/
theorem slices_of_offset9_format (op : BitVec 4) (r : Reg) (off9 : BitVec 9) :
    ∀ slice ∈ [(12, 4, op.toNat), (9, 3, r.toNat), (0, 9, off9.toNat)],
      ((place op 12 ||| place r 9 ||| place off9 0).extractLsb' slice.1 slice.2.1).toNat = slice.2.2 := by
  simp [extractLsb'_eq_field, field_or, field_place_same, field_place_disjoint]

/-- The slices of a form with two registers and a 6-bit offset: LDR, and the store STR. -/
theorem slices_of_offset6_format (op : BitVec 4) (r baseR : Reg) (off6 : BitVec 6) :
    ∀ slice ∈ [(12, 4, op.toNat), (9, 3, r.toNat), (6, 3, baseR.toNat), (0, 6, off6.toNat)],
      ((place op 12 ||| place r 9 ||| place baseR 6 ||| place off6 0).extractLsb' slice.1 slice.2.1).toNat =
        slice.2.2 := by
  simp [extractLsb'_eq_field, field_or, field_place_same, field_place_disjoint]

theorem decode_of_fieldOPC_ld {iw : Word} (h : fieldOPC iw = Opcode.ld.number) :
    decode iw = .ld (fieldDR iw) (fieldOff9 iw) := by
  rw [decode, (Opcode.ofNumber_eq_iff _ _).mpr h]

theorem decode_of_fieldOPC_ldi {iw : Word} (h : fieldOPC iw = Opcode.ldi.number) :
    decode iw = .ldi (fieldDR iw) (fieldOff9 iw) := by
  rw [decode, (Opcode.ofNumber_eq_iff _ _).mpr h]

theorem decode_of_fieldOPC_ldr {iw : Word} (h : fieldOPC iw = Opcode.ldr.number) :
    decode iw = .ldr (fieldDR iw) (fieldBaseR iw) (fieldOff6 iw) := by
  rw [decode, (Opcode.ofNumber_eq_iff _ _).mpr h]

theorem decode_of_fieldOPC_lea {iw : Word} (h : fieldOPC iw = Opcode.lea.number) :
    decode iw = .lea (fieldDR iw) (fieldOff9 iw) := by
  rw [decode, (Opcode.ofNumber_eq_iff _ _).mpr h]

/-- R18: writing a result reads and changes no memory, so it commutes with exchanging the memory. -/
theorem State.writeResult_withMem (s : State) (m : Memory) (dr : Reg) (v : Word) :
    ({ s with mem := m } : State).writeResult dr v = { s.writeResult dr v with mem := m } := rfl

/-- Settles O38: the effect is `exec_ld`, one `writeResult` of the cell at the PC-relative address. -/
theorem loadForm : Obligations.LoadForm := by
  refine ⟨fun _ => decode_of_fieldOPC_ld, fun dr => ⟨?spelled, fun off9 => ⟨⟨_, rfl, ?encoded⟩, ?effect⟩⟩⟩
  case spelled => exact spellsLabel_of_labelField (m := .ld) (by decide) rfl fun _ _ _ => rfl
  case encoded => exact slices_of_offset9_format Opcode.ld.number dr off9
  case effect => exact writesResult_of_exec (exec_ld dr off9)

/-- Settles O39: the effect is `exec_ldi`, one `writeResult` of the cell that the pointer names. -/
theorem loadIndirectForm : Obligations.LoadIndirectForm := by
  refine ⟨fun _ => decode_of_fieldOPC_ldi, fun dr => ⟨?spelled, fun off9 => ⟨⟨_, rfl, ?encoded⟩, ?effect⟩⟩⟩
  case spelled => exact spellsLabel_of_labelField (m := .ldi) (by decide) rfl fun _ _ _ => rfl
  case encoded => exact slices_of_offset9_format Opcode.ldi.number dr off9
  case effect => exact writesResult_of_exec (exec_ldi dr off9)

/-- Settles O40: the address is a function of the state before the write, so DR may be the base. -/
theorem loadBaseOffsetForm : Obligations.LoadBaseOffsetForm := by
  refine ⟨fun _ => decode_of_fieldOPC_ldr, fun dr baseR => ⟨?spelled, fun off6 => ⟨⟨_, rfl, ?encoded⟩, ?effect⟩⟩⟩
  case spelled => exact spellsLit_of_fitField (m := .ldr) (by decide) rfl fun _ _ _ => rfl
  case encoded => exact slices_of_offset6_format Opcode.ldr.number dr baseR off6
  case effect => exact writesResult_of_exec (exec_ldr dr baseR off6)

/-- Settles O41: the value written is PC plus the offset, and `State.writeResult_withMem` carries any memory past it. -/
theorem loadEffectiveAddressForm : Obligations.LoadEffectiveAddressForm := by
  refine ⟨fun _ => decode_of_fieldOPC_lea, fun dr off9 s m => ⟨_, exec_lea dr off9 s, ?anyMemory⟩,
    fun dr => ⟨?spelled, fun off9 => ⟨⟨_, rfl, ?encoded⟩, ?effect⟩⟩⟩
  case anyMemory => rw [exec_lea, State.writeResult_withMem]
  case spelled => exact spellsLabel_of_labelField (m := .lea) (by decide) rfl fun _ _ _ => rfl
  case encoded => exact slices_of_offset9_format Opcode.lea.number dr off9
  case effect => exact writesResult_of_exec (exec_lea dr off9)

end Sys2Proof.Machine

namespace Sys2Proof.Machine

/-! ### Stores (`43_store.md` R130 to R132) -/

/-- An instruction whose meaning is one `memWrite` changes the one cell and nothing else. -/
theorem stores_of_exec {i : Instr} {addr v : State → Word}
    (h : ∀ s, exec i s = .next (s.memWrite (addr s) (v s))) : Stores i addr v := by
  refine fun s => ⟨_, h s, ?stored, fun b hb => ?others, fun _ => rfl, rfl, rfl, rfl, rfl, rfl, rfl⟩
  case stored => rw [State.memRead_memWrite, if_pos rfl]
  case others => rw [State.memRead_memWrite, if_neg hb]

/-- R70: a field widened by its sign is the word of its signed value. -/
theorem sext_eq_ofInt {k : Nat} (f : BitVec k) : sext f = BitVec.ofInt 16 f.toInt := rfl

/-- R70, R130: the PC-relative address is PC plus the signed offset. -/
theorem State.pcRel_eq_add_ofInt {k : Nat} (s : State) (off : BitVec k) :
    s.pcRel off = s.pc + BitVec.ofInt 16 off.toInt := by
  rw [State.pcRel, sext_eq_ofInt]

theorem decode_of_fieldOPC_st {iw : Word} (h : fieldOPC iw = Opcode.st.number) :
    decode iw = .st (fieldSR iw) (fieldOff9 iw) := by
  rw [decode, (Opcode.ofNumber_eq_iff _ _).mpr h]

theorem decode_of_fieldOPC_sti {iw : Word} (h : fieldOPC iw = Opcode.sti.number) :
    decode iw = .sti (fieldSR iw) (fieldOff9 iw) := by
  rw [decode, (Opcode.ofNumber_eq_iff _ _).mpr h]

theorem decode_of_fieldOPC_str {iw : Word} (h : fieldOPC iw = Opcode.str.number) :
    decode iw = .str (fieldSR iw) (fieldBaseR iw) (fieldOff6 iw) := by
  rw [decode, (Opcode.ofNumber_eq_iff _ _).mpr h]

/-- Settles O42: the effect is `exec_st`, one `memWrite` at the PC-relative address. -/
theorem storeForm : Obligations.StoreForm := by
  refine ⟨fun _ => decode_of_fieldOPC_st, fun sr =>
    ⟨?spelled, fun off9 => ⟨⟨_, rfl, ?encoded⟩, ?effect, fun s => ?address⟩⟩⟩
  case spelled => exact spellsLabel_of_labelField (m := .st) (by decide) rfl fun _ _ _ => rfl
  case encoded => exact slices_of_offset9_format Opcode.st.number sr off9
  case effect => exact stores_of_exec (exec_st sr off9)
  case address => exact s.pcRel_eq_add_ofInt off9

/-- Settles O43: the pointer is a function of the state before the write, so the pointer cell may be the one written. -/
theorem storeIndirectForm : Obligations.StoreIndirectForm := by
  refine ⟨fun _ => decode_of_fieldOPC_sti, fun sr =>
    ⟨?spelled, fun off9 => ⟨⟨_, rfl, ?encoded⟩, ?effect, fun s => ?address⟩⟩⟩
  case spelled => exact spellsLabel_of_labelField (m := .sti) (by decide) rfl fun _ _ _ => rfl
  case encoded => exact slices_of_offset9_format Opcode.sti.number sr off9
  case effect => exact stores_of_exec (exec_sti sr off9)
  case address => rw [State.pointer, State.pcRel_eq_add_ofInt]

/-- Settles O44: the effect is `exec_str`, which reads SR and the base register from one state, so they may be equal. -/
theorem storeBaseOffsetForm : Obligations.StoreBaseOffsetForm := by
  refine ⟨fun _ => decode_of_fieldOPC_str, fun sr baseR =>
    ⟨?spelled, fun off6 => ⟨⟨_, rfl, ?encoded⟩, ?effect, fun s => ?address⟩⟩⟩
  case spelled => exact spellsLit_of_fitField (m := .str) (by decide) rfl fun _ _ _ => rfl
  case encoded => exact slices_of_offset6_format Opcode.str.number sr baseR off6
  case effect => exact stores_of_exec (exec_str sr baseR off6)
  case address => rw [State.baseOff, sext_eq_ofInt]

end Sys2Proof.Machine

namespace Sys2Proof.Machine

/-! ### The system call and the reserved opcodes (`44_system.md` R140 to R147) -/

theorem exists_eq_trap_of_opcode {i : Instr} (h : i.opcode = .trap) : ∃ iw, i = .trap iw := by
  cases i with
  | trap iw => exact ⟨iw, rfl⟩
  | _ => cases h

/-- R141: no effect but the trap's calls the handler. -/
theorem Effect.trapCalls_of_opcode_ne_trap {s t : State} {i : Instr} (h : Effect s i t) (htrap : i.opcode ≠ .trap) :
    t.trapCalls = s.trapCalls := by
  cases h with
  | result _ _ | jump _ _ | call _ _ | store _ _ | reserved _ _ => rfl
  | trap _ => exact absurd rfl htrap

/-- Settles O13: TRAP is one `callTrapHandler`, and every other effect leaves the counter alone. -/
theorem handlerIsCalledOnlyByTrap : Obligations.HandlerIsCalledOnlyByTrap := by
  intro i s t h
  by_cases htrap : i.opcode = .trap
  · rw [if_pos htrap]
    obtain ⟨iw, rfl⟩ := exists_eq_trap_of_opcode htrap
    cases h
    exact s.callTrapHandler_trapCalls iw
  · rw [if_neg htrap]
    exact (effect_of_exec h).trapCalls_of_opcode_ne_trap htrap

theorem decode_of_fieldOPC_trap {iw : Word} (h : fieldOPC iw = Opcode.trap.number) : decode iw = .trap iw := by
  rw [decode, (Opcode.ofNumber_eq_iff _ _).mpr h]

theorem decode_of_fieldOPC_res8 {iw : Word} (h : fieldOPC iw = Opcode.res8.number) : decode iw = .res8 iw := by
  rw [decode, (Opcode.ofNumber_eq_iff _ _).mpr h]

theorem decode_of_fieldOPC_res13 {iw : Word} (h : fieldOPC iw = Opcode.res13.number) : decode iw = .res13 iw := by
  rw [decode, (Opcode.ofNumber_eq_iff _ _).mpr h]

/-- Bits 11:8 of the word are not encoded: they are zeros (R75). -/
theorem encodesAs_trap (iw : Word) :
    EncodesAs (.trap iw) [(12, 4, 0b1111), (8, 4, 0b0000), (0, 8, (iw.extractLsb' 0 8).toNat)] := by
  refine ⟨_, rfl, ?_⟩
  simp [extractLsb'_eq_field, field_or, field_place_same, field_place_disjoint, Opcode.number, fieldTrapvect8]

/-- R142: after the handler's call a cell reads what the handler last wrote to it, or what it read before. -/
theorem State.memRead_callTrapHandler_other (s : State) {iw : Word} (h : iw ≠ wordHalt) (b : Word) :
    (s.callTrapHandler iw).memRead b =
      ((Config.trapHandler s.regs s.pc s.cond s.mem iw s.trapCalls).writes.reverse.lookup b).getD (s.memRead b) := by
  rw [State.callTrapHandler_other s iw h]
  exact Memory.read_writeAll _ _ b

/-- Settles O45: the effect is `callTrapHandler`, by its two equations, for the halt word and for any other. -/
theorem trapForm : Obligations.TrapForm := by
  refine ⟨fun _ => decode_of_fieldOPC_trap, encodesAs_trap, fun s => ⟨_, exec_trap wordHalt s, ?halt⟩,
    fun iw s hiw => ⟨_, _, rfl, exec_trap iw s, ?service⟩⟩
  case halt =>
    rw [State.callTrapHandler_halt]
    exact ⟨rfl, fun _ => rfl, rfl, rfl, fun _ => rfl, rfl, rfl, rfl⟩
  case service =>
    have hmem := s.memRead_callTrapHandler_other hiw
    rw [State.callTrapHandler_other s iw hiw] at hmem ⊢
    exact ⟨rfl, rfl, rfl, rfl, hmem, rfl, rfl, rfl⟩

/-- Settles O47: the effect of either form is `raiseIllegalOpcode`, and neither is legal. -/
theorem reservedForms : Obligations.ReservedForms :=
  ⟨fun _ => decode_of_fieldOPC_res8, fun _ => decode_of_fieldOPC_res13, fun iw =>
    ⟨raises_of_exec (exec_res8 iw), raises_of_exec (exec_res13 iw), (encode_eq_none_iff _).mpr rfl,
      (encode_eq_none_iff _).mpr rfl⟩⟩

/-- R144: a service mnemonic takes no operand and stands for the TRAP of its word. -/
theorem spells_trap {mnemonic : String} {iw : Word} (h : parseMnemonic mnemonic.toList = some (.trap iw)) :
    Spells mnemonic [] (.trap iw) :=
  fun _ _ => ⟨.trap iw, h, rfl⟩

/-- R79: a canonical word of opcode 15 is the encoding of its own TRAP. -/
theorem emit_trap_of_canonicalWord {iw : Word} (hop : fieldOPC iw = Opcode.trap.number)
    (hcanonical : canonicalWord iw = true) : emit (.trap iw) = .ok iw := by
  rw [emit, ← decode_of_fieldOPC_trap hop, encode_decode_of_canonicalWord hcanonical]

/-- Settles O46: each mnemonic is looked up in the table, and each service word is canonical. -/
theorem serviceWords : Obligations.ServiceWords :=
  ⟨spells_trap rfl, spells_trap rfl, spells_trap rfl, spells_trap rfl, spells_trap rfl, spells_trap rfl,
    emit_trap_of_canonicalWord rfl rfl, emit_trap_of_canonicalWord rfl rfl, emit_trap_of_canonicalWord rfl rfl,
    emit_trap_of_canonicalWord rfl rfl, emit_trap_of_canonicalWord rfl rfl, emit_trap_of_canonicalWord rfl rfl⟩

end Sys2Proof.Machine

namespace Sys2Proof.Machine

/-! ### Assembler text (`49_assembler.md` R151 to R154) -/

theorem isBlank_iff (c : Char) : isBlank c = true ↔ c ∈ [' ', '\t', '\r', '\n'] := by
  simp [isBlank, or_assoc]

theorem trim_eq_rdropWhile (line : Text) : trim line = (line.dropWhile isBlank).rdropWhile isBlank := rfl

/-- R151: a line is what `trim` takes away on the left, what it leaves, and what it takes away on the right. -/
theorem trim_decomposition (line : Text) :
    line = line.takeWhile isBlank ++ trim line ++ (line.dropWhile isBlank).rtakeWhile isBlank := by
  rw [trim_eq_rdropWhile, List.append_assoc, List.rdropWhile_append_rtakeWhile, List.takeWhile_append_dropWhile]

theorem isBlank_eq_false_of_head?_trim {line : Text} {c : Char} (h : (trim line).head? = some c) : isBlank c = false := by
  have hprefix : trim line <+: line.dropWhile isBlank := List.rdropWhile_prefix isBlank _
  have hhead : (line.dropWhile isBlank).head? = some c :=
    List.singleton_prefix_iff_head?_eq_some.mp ((List.singleton_prefix_iff_head?_eq_some.mpr h).trans hprefix)
  simpa [hhead] using List.head?_dropWhile_not isBlank line

theorem isBlank_eq_false_of_getLast?_trim {line : Text} {c : Char} (h : (trim line).getLast? = some c) :
    isBlank c = false := by
  obtain ⟨hne, rfl⟩ := List.mem_getLast?_eq_getLast h
  exact Bool.eq_false_of_not_eq_true (List.rdropWhile_last_not isBlank _ hne)

theorem trim_trim (line : Text) : trim (trim line) = trim line := by
  have hleft : (trim line).dropWhile isBlank = trim line := by
    cases htrim : trim line with
    | nil => rfl
    | cons c rest =>
      have hc : isBlank c = false := isBlank_eq_false_of_head?_trim (by rw [htrim, List.head?_cons])
      exact List.dropWhile_cons_of_neg (ne_true_of_eq_false hc)
  rw [trim_eq_rdropWhile (trim line), hleft, trim_eq_rdropWhile line, List.rdropWhile_idempotent]

theorem not_mem_normalizeLine (line : Text) : ';' ∉ normalizeLine line := by
  intro hmem
  have hcut : ';' ∈ line.takeWhile (· != ';') := by
    rw [trim_decomposition (line.takeWhile (· != ';'))]
    exact List.mem_append_left _ (List.mem_append_right _ hmem)
  exact absurd (List.mem_takeWhile_imp hcut) (by decide)

/-- R151: a normalized line has no comment to cut off, and is trimmed. -/
theorem normalizeLine_normalizeLine (line : Text) : normalizeLine (normalizeLine line) = normalizeLine line := by
  have hcut : (normalizeLine line).takeWhile (· != ';') = normalizeLine line :=
    List.takeWhile_eq_self_iff.mpr fun c hc => bne_iff_ne.mpr (ne_of_mem_of_not_mem hc (not_mem_normalizeLine line))
  rw [normalizeLine, hcut]
  exact trim_trim _

/-- Settles O49: `trim_decomposition` of the line cut at its first comment marker. -/
theorem normalizerIsIdempotent : Obligations.NormalizerIsIdempotent := by
  intro line
  refine ⟨⟨_, _, trim_decomposition _, fun c hc => ?left, fun c hc => ?right⟩, normalizeLine_normalizeLine line,
    not_mem_normalizeLine line, fun c hc => ?head, fun c hc => ?last⟩
  case left => exact (isBlank_iff c).mp (List.mem_takeWhile_imp hc)
  case right => exact (isBlank_iff c).mp (List.mem_rtakeWhile_imp hc)
  case head => exact mt (isBlank_iff c).mpr (ne_true_of_eq_false (isBlank_eq_false_of_head?_trim hc))
  case last => exact mt (isBlank_iff c).mpr (ne_true_of_eq_false (isBlank_eq_false_of_getLast?_trim hc))

theorem classify_of_nil {line : Text} (h : normalizeLine line = []) : classify line = .blank := by
  rw [classify, h]
  rfl

/-- R153: the last character decides between a label definition and a word of the image. -/
theorem classify_of_concat {line init : Text} {c : Char} (h : normalizeLine line = init ++ [c]) :
    classify line = if c = ':' then .labelDef init else .code (init ++ [c]) := by
  rw [classify, h, List.getLast?_concat, List.dropLast_concat]

/-- Settles O55: a normalized line is empty or has a last character. -/
theorem linesAreClassifiedByTheirEnd : Obligations.LinesAreClassifiedByTheirEnd := by
  intro line
  rcases List.eq_nil_or_concat' (normalizeLine line) with hnil | ⟨init, c, hconcat⟩
  · rw [classify_of_nil hnil, hnil]
    exact ⟨by simp, by simp, fun text => ⟨fun ⟨hempty, hne, _⟩ => absurd hempty.symm hne, nofun⟩⟩
  · rw [classify_of_concat hconcat, hconcat]
    by_cases hc : c = ':'
    · subst hc
      rw [if_pos rfl]
      refine ⟨by simp, by simp, fun text => ⟨fun ⟨htext, _, hend⟩ => absurd ?_ hend, nofun⟩⟩
      rw [← htext, List.getLast?_concat]
    · rw [if_neg hc]
      refine ⟨by simp, by simp [hc], fun text => ⟨fun ⟨htext, _⟩ => congrArg _ htext, fun hcode => ?_⟩⟩
      cases hcode
      simp [hc]

/-! ### The field of a label, and `fill` (`49_assembler.md` R155, R166) -/

theorem toInt_of_fitField {k : Nat} (hk : 0 < k) {v : Int} {f : BitVec k} (h : fitField k v = .ok f) : f.toInt = v := by
  rw [fitField] at h
  split at h
  · next g hg =>
    cases h
    exact (fieldOfInt?_eq_some_iff hk v f).mp hg
  · cases h

/-- R155: PC stands at the address after the line's own, so adding the field of a label gives the label's address. -/
theorem pc_add_labelField {k : Nat} (hk : 0 < k) {tab : SymTab} {here target : Nat} {l : Text} {s : State}
    {f : BitVec k} (hl : tab.lookup l = some target) (hpc : s.pc = BitVec.ofNat 16 (here + 1))
    (hf : labelField k tab here l = .ok f) : s.pc + BitVec.ofInt 16 f.toInt = BitVec.ofNat 16 target := by
  rw [labelField_of_lookup hl] at hf
  have hsum : ((here + 1 : Nat) : Int) + ((target : Int) - (here + 1)) = target := by omega
  rw [toInt_of_fitField hk hf, hpc, ← BitVec.ofInt_natCast 16 (here + 1), ← BitVec.ofInt_add, hsum,
    BitVec.ofInt_natCast]

/-- Settles O52: a branch without a mask is always taken, and a call jumps from the PC that it links. -/
theorem branchOffsetSymmetry : Obligations.BranchOffsetSymmetry := by
  intro tab here target l s hl _ hpc
  refine ⟨fun f hf => ?branch, fun f hf => ?call⟩
  case branch =>
    obtain ⟨t, ht, hjump, -⟩ := jumps_br false false false f s
    exact ⟨t, ht, hjump.trans (pc_add_labelField (by decide) hl hpc hf)⟩
  case call => exact ⟨_, exec_jsr f s, pc_add_labelField (by decide) hl hpc hf⟩

/-- Settles O53: `fill` with a literal is `fillWord`, and the grammar has no `fill` with a label. -/
theorem fillEmitsTheLiteral : Obligations.FillEmitsTheLiteral := by
  intro tab here v
  refine ⟨.fill, rfl, fun hlo hhi => ⟨BitVec.ofInt 16 v, if_pos ⟨hlo, hhi⟩, ?word⟩,
    fun hout => if_neg ?refused, fun _ => rfl⟩
  case word =>
    rw [BitVec.toNat_ofInt, Int.toNat_of_nonneg (by omega)]
    rfl
  case refused => omega

/-! ### Lines of code and label definitions, seen by the passes (`49_assembler.md` R154, R155) -/

/-- R154: whether a line is one word of the image. -/
def isCode (line : Text) : Bool :=
  match classify line with
  | .code _ => true
  | _ => false

theorem isCode_iff (line : Text) : isCode line = true ↔ ∃ text, classify line = .code text := by
  unfold isCode
  cases classify line <;> simp

theorem labelDefined_eq_some_iff {line name : Text} :
    labelDefined line = some name ↔ classify line = .labelDef name := by
  unfold labelDefined
  cases classify line <;> simp

theorem isCode_eq_false_of_labelDefined {line name : Text} (h : labelDefined line = some name) : isCode line = false := by
  rw [isCode, labelDefined_eq_some_iff.mp h]

/-- A computation that may fail succeeds exactly if both its parts do. -/
theorem exceptBind_eq_ok {ε α β : Type} {x : Except ε α} {f : α → Except ε β} {b : β} :
    x >>= f = .ok b ↔ ∃ a, x = .ok a ∧ f a = .ok b := by
  cases x with
  | error e => exact ⟨nofun, nofun⟩
  | ok a => exact ⟨fun h => ⟨a, rfl, h⟩, fun ⟨_, rfl, h⟩ => h⟩

/-! ### Pass 1 (`49_assembler.md` R154, R156) -/

theorem lookup_eq_none_iff_not_mem_names {tab : SymTab} {name : Text} :
    tab.lookup name = none ↔ name ∉ tab.map Prod.fst := by
  simp only [List.lookup_eq_none_iff, bne_iff_ne, List.mem_map, not_exists, not_and]
  exact forall₂_congr fun _ _ => ne_comm

theorem names_append_singleton (tab : SymTab) (name : Text) (here : Nat) :
    (tab ++ [(name, here)]).map Prod.fst = tab.map Prod.fst ++ [name] :=
  List.map_append

theorem pass1_cons_of_no_label {n here : Nat} {tab : SymTab} {line : Text} (rest : List Text)
    (h : labelDefined line = none) :
    pass1 n here tab (line :: rest) = pass1 (n + 1) (here + if isCode line then 1 else 0) tab rest := by
  unfold labelDefined at h
  cases hkind : classify line with
  | labelDef name => simp [hkind] at h
  | blank | code text => simp [pass1, isCode, hkind]

theorem pass1_cons_of_new_label {n here : Nat} {tab : SymTab} {line name : Text} (rest : List Text)
    (h : labelDefined line = some name) (hnew : name ∉ tab.map Prod.fst) :
    pass1 n here tab (line :: rest) = pass1 (n + 1) here (tab ++ [(name, here)]) rest := by
  simp only [pass1, labelDefined_eq_some_iff.mp h, lookup_eq_none_iff_not_mem_names.mpr hnew]

theorem pass1_cons_of_known_label {n here : Nat} {tab : SymTab} {line name : Text} (rest : List Text)
    (h : labelDefined line = some name) (hknown : name ∈ tab.map Prod.fst) :
    pass1 n here tab (line :: rest) = .error ⟨n, .duplicateLabel name⟩ := by
  obtain ⟨a, ha⟩ := Option.ne_none_iff_exists'.mp (mt lookup_eq_none_iff_not_mem_names.mp (not_not_intro hknown))
  simp only [pass1, labelDefined_eq_some_iff.mp h, ha]

/-- The three kinds of line that pass 1 tells apart: without a label, with a new one, with a known one. -/
theorem labelDefined_cases (tab : SymTab) (line : Text) :
    labelDefined line = none ∨ ∃ name, labelDefined line = some name ∧
      (name ∉ tab.map Prod.fst ∨ name ∈ tab.map Prod.fst) := by
  cases labelDefined line with
  | none => exact .inl rfl
  | some name => exact .inr ⟨name, rfl, (em _).symm⟩

/-- R154: pass 1 over the lines before, then over the rest, from the address that the lines of code before lead to. -/
theorem pass1_append (n here : Nat) (tab : SymTab) (before after : List Text) :
    pass1 n here tab (before ++ after) =
      pass1 n here tab before >>= fun mid => pass1 (n + before.length) (here + before.countP isCode) mid after := by
  induction before generalizing n here tab with
  | nil => rfl
  | cons line before ih =>
    rw [List.cons_append, List.length_cons, List.countP_cons, Nat.add_comm before.length, ← Nat.add_assoc]
    obtain hnone | ⟨name, hname, hnew | hknown⟩ := labelDefined_cases tab line
    · rw [pass1_cons_of_no_label _ hnone, pass1_cons_of_no_label _ hnone, ih, Nat.add_assoc here,
        Nat.add_comm (List.countP ..)]
    · rw [pass1_cons_of_new_label _ hname hnew, pass1_cons_of_new_label _ hname hnew, ih, isCode_eq_false_of_labelDefined hname]
      rfl
    · rw [pass1_cons_of_known_label _ hname hknown, pass1_cons_of_known_label _ hname hknown]
      rfl

/-- R169: pass 1 only adds to the symbols found so far, at the end. -/
theorem isPrefix_of_pass1 {n here : Nat} {tab tab' : SymTab} {lines : List Text}
    (h : pass1 n here tab lines = .ok tab') : tab <+: tab' := by
  induction lines generalizing n here tab with
  | nil => cases h; exact List.prefix_rfl
  | cons line rest ih =>
    obtain hnone | ⟨name, hname, hnew | hknown⟩ := labelDefined_cases tab line
    · exact ih (pass1_cons_of_no_label rest hnone ▸ h)
    · exact (List.prefix_append tab _).trans (ih (pass1_cons_of_new_label rest hname hnew ▸ h))
    · cases (pass1_cons_of_known_label rest hname hknown).symm.trans h

/-- R154: a definition that pass 1 accepts is in its table with the address the definition stands at. -/
theorem lookup_of_pass1_cons {n here : Nat} {tab tab' : SymTab} {line name : Text} {rest : List Text}
    (hname : labelDefined line = some name) (h : pass1 n here tab (line :: rest) = .ok tab') :
    tab'.lookup name = some here := by
  by_cases hknown : name ∈ tab.map Prod.fst
  · cases (pass1_cons_of_known_label rest hname hknown).symm.trans h
  · rw [pass1_cons_of_new_label rest hname hknown] at h
    refine (isPrefix_of_pass1 h).lookup_eq_some ?_
    rw [List.lookup_append, lookup_eq_none_iff_not_mem_names.mpr hknown, Option.none_or, List.lookup_cons_self]

/-- Settles O50: pass 1 arrives at the definition with one address for each line of code before it. -/
theorem labelAddressCountsWords : Obligations.LabelAddressCountsWords := by
  intro before after line name tab hline h
  rw [pass1_append] at h
  obtain ⟨mid, -, hrest⟩ := exceptBind_eq_ok.mp h
  exact lookup_of_pass1_cons (labelDefined_eq_some_iff.mpr hline) hrest

/-- R153: pass 1 succeeds exactly if the symbols found so far and those it meets are pairwise different. -/
theorem pass1_ok_iff {n here : Nat} {tab : SymTab} (lines : List Text) (htab : (tab.map Prod.fst).Nodup) :
    (∃ tab', pass1 n here tab lines = .ok tab') ↔ (tab.map Prod.fst ++ lines.filterMap labelDefined).Nodup := by
  induction lines generalizing n here tab with
  | nil => simp [pass1, htab]
  | cons line rest ih =>
    obtain hnone | ⟨name, hname, hnew | hknown⟩ := labelDefined_cases tab line
    · rw [pass1_cons_of_no_label rest hnone, List.filterMap_cons_none hnone, ih htab]
    · have hnames : ((tab ++ [(name, here)]).map Prod.fst).Nodup := by
        rw [names_append_singleton]
        exact htab.append (List.nodup_singleton name) (List.disjoint_singleton.mpr hnew)
      rw [pass1_cons_of_new_label rest hname hnew, List.filterMap_cons_some hname, ih hnames,
        names_append_singleton, List.append_assoc, List.singleton_append]
    · rw [pass1_cons_of_known_label rest hname hknown, List.filterMap_cons_some hname]
      refine ⟨nofun, fun hnodup => ?_⟩
      exact absurd List.mem_cons_self (List.disjoint_of_nodup_append hnodup hknown)

/-- R156: an error of pass 1 names a label and the line that defines it again. -/
theorem pass1_error {n here : Nat} {tab : SymTab} {lines : List Text} {e : AsmError}
    (h : pass1 n here tab lines = .error e) :
    ∃ before line after name, lines = before ++ line :: after ∧ labelDefined line = some name ∧
      e = ⟨n + before.length, .duplicateLabel name⟩ ∧ name ∈ tab.map Prod.fst ++ before.filterMap labelDefined := by
  induction lines generalizing n here tab with
  | nil => cases h
  | cons first rest ih =>
    obtain hnone | ⟨known, hfirst, hnew | hknown⟩ := labelDefined_cases tab first
    · rw [pass1_cons_of_no_label rest hnone] at h
      obtain ⟨before, line, after, name, rfl, hname, rfl, hmem⟩ := ih h
      refine ⟨first :: before, line, after, name, rfl, hname, ?_, ?_⟩
      · rw [List.length_cons, Nat.add_comm before.length, Nat.add_assoc]
      · rwa [List.filterMap_cons_none hnone]
    · rw [pass1_cons_of_new_label rest hfirst hnew] at h
      obtain ⟨before, line, after, name, rfl, hname, rfl, hmem⟩ := ih h
      refine ⟨first :: before, line, after, name, rfl, hname, ?_, ?_⟩
      · rw [List.length_cons, Nat.add_comm before.length, Nat.add_assoc]
      · rwa [List.filterMap_cons_some hfirst, List.append_cons, ← names_append_singleton]
    · cases (pass1_cons_of_known_label rest hfirst hknown).symm.trans h
      exact ⟨[], first, rest, known, rfl, hfirst, rfl, List.mem_append_left _ hknown⟩

/-- Settles O54: both directions from the empty table, where every known label was defined on a line before. -/
theorem passOneRefusesOnlyDuplicates : Obligations.PassOneRefusesOnlyDuplicates := by
  refine fun lines => ⟨pass1_ok_iff lines List.nodup_nil, fun e h => ?_⟩
  obtain ⟨before, line, after, name, rfl, hname, rfl, hmem⟩ := pass1_error h
  obtain ⟨earlier, hearlier, hdefined⟩ := List.mem_filterMap.mp hmem
  obtain ⟨i, hi, rfl⟩ := List.mem_iff_getElem.mp hearlier
  refine ⟨name, rfl, i, before.length, before[i], line, hi, Nat.add_comm .., ?_, ?_, hdefined, hname⟩
  · rw [List.getElem?_append_left hi, List.getElem?_eq_getElem hi]
  · rw [List.getElem?_append_right (Nat.le_refl _), Nat.sub_self, List.getElem?_cons_zero]

/-! ### Pass 2 (`49_assembler.md` R155, R168) -/

theorem pass2_cons_of_not_code {tab : SymTab} {n here : Nat} {line : Text} (rest : List Text)
    (h : isCode line = false) : pass2 tab n here (line :: rest) = pass2 tab (n + 1) here rest := by
  unfold isCode at h
  cases hkind : classify line with
  | code text => simp [hkind] at h
  | blank | labelDef name => simp only [pass2, hkind]

/-- R155: a line of code that pass 2 accepts gives one word. -/
theorem pass2_cons_of_code {tab : SymTab} {n here : Nat} {line : Text} {rest : List Text} {ws : List Word}
    (hcode : isCode line = true) (h : pass2 tab n here (line :: rest) = .ok ws) :
    ∃ w ws', pass2 tab (n + 1) (here + 1) rest = .ok ws' ∧ ws = w :: ws' := by
  obtain ⟨text, htext⟩ := (isCode_iff line).mp hcode
  simp only [pass2, htext] at h
  split at h
  · cases h
  · next w _ =>
    obtain ⟨ws', hrest, hws⟩ := exceptBind_eq_ok.mp h
    cases hws
    exact ⟨w, ws', hrest, rfl⟩

theorem length_of_pass2 {tab : SymTab} {n here : Nat} {lines : List Text} {ws : List Word}
    (h : pass2 tab n here lines = .ok ws) : ws.length = lines.countP isCode := by
  induction lines generalizing n here ws with
  | nil => cases h; rfl
  | cons line rest ih =>
    cases hcode : isCode line with
    | false =>
      rw [pass2_cons_of_not_code rest hcode] at h
      rw [List.countP_cons_of_neg (ne_true_of_eq_false hcode), ih h]
    | true =>
      obtain ⟨w, ws', hrest, rfl⟩ := pass2_cons_of_code hcode h
      rw [List.countP_cons_of_pos hcode, List.length_cons, ih hrest]

/-- Settles O51: the words of the image are those of pass 2. -/
theorem oneWordPerInstructionLine : Obligations.OneWordPerInstructionLine := by
  intro source bytes h
  obtain ⟨program, hprogram, hbytes⟩ := exceptBind_eq_ok.mp h
  obtain ⟨tab, -, hpass2⟩ := exceptBind_eq_ok.mp hprogram
  cases hbytes
  exact ⟨program, rfl, length_of_pass2 hpass2⟩

end Sys2Proof.Machine

namespace Sys2Proof.Machine

/-! ### Exceptions, seen by the step (`60_exceptions.md` R180 to R184) -/

/-- Settles O3: every instruction has an effect in every state, so the step of a running machine has one too. -/
theorem everyRunningStepCompletes : Obligations.EveryRunningStepCompletes := fun _ => step_completes

/-- R80, R180: the word of a reserved opcode decodes to a form that raises IllegalOpcode with that word. -/
theorem raises_decode_of_fieldOPC {iw : Word}
    (h : fieldOPC iw = Opcode.res8.number ∨ fieldOPC iw = Opcode.res13.number) : Raises (decode iw) iw := by
  refine raises_decode ((legal_eq_false_iff _).mpr ?_)
  rcases h with h8 | h13
  · exact .inl (by rw [decode_of_fieldOPC_res8 h8, Instr.opcode])
  · exact .inr (by rw [decode_of_fieldOPC_res13 h13, Instr.opcode])

/-- Settles O14: the decoded form raises IllegalOpcode in the advanced state, whose PC is one past the word; settling keeps
the stop mark, and a stopped machine takes no step. -/
theorem reservedWordStopsTheMachine : Obligations.ReservedWordStopsTheMachine := by
  intro s hs hop
  obtain ⟨t, hexec, hstatus, hstop, hraised, hcalls, hregs, hpc, hcond, hmem⟩ :=
    raises_decode_of_fieldOPC hop s.advance
  have hstep : step s = .next t.settle := by rw [step_running hs, State.fetchWord, hexec, settleResult_next]
  have hsettled : t.settle.stopped = true := by rw [State.settle, hstop, Bool.true_or]
  have haddress : s.advance.pc - 1 = s.pc := BitVec.add_sub_cancel s.pc 1
  rw [haddress] at hraised
  exact ⟨t.settle, hstep, hstatus, hsettled, hpc, hraised, hregs, hcond, hmem, hcalls, step_stopped hsettled⟩

end Sys2Proof.Machine

namespace Sys2Proof.Machine

/-! ### Reset with the launch parameters (`70_reset_and_hazards.md` R200, R201) -/

theorem State.inv_launch {p : LaunchParams} (h : p.memInit.wf = true) : (State.launch p).Inv :=
  ⟨Memory.wf_writeBlock Config.origin p.program h, by simp [State.launch], fun hraised => absurd rfl hraised⟩

/-- Settles O7: the load keeps the canonical form, and reset is one of the launches. -/
theorem invariantHoldsAtLaunch : Obligations.InvariantHoldsAtLaunch := by
  refine ⟨?_, fun _ => State.inv_launch⟩
  rw [State.reset_eq_launch]
  exact State.inv_launch Memory.wf_nil

/-- R200, R201: an image that ends inside the address space is read back from `ORIGIN` on, and `MEM_INIT` elsewhere. -/
theorem State.memRead_launch {p : LaunchParams} (hlen : p.program.length ≤ 0xD000) (a : Word) :
    (State.launch p).memRead a =
      if 0x3000 ≤ a.toNat then p.program[a.toNat - 0x3000]?.getD (p.memInit.read a) else p.memInit.read a := by
  have hfit : Config.origin.toNat + p.program.length ≤ 65536 := Nat.add_le_add_left hlen 0x3000
  exact Memory.read_writeBlock p.memInit Config.origin p.program hfit a

theorem State.memRead_launch_program {p : LaunchParams} (hlen : p.program.length ≤ 0xD000) {i : Nat}
    (hi : i < p.program.length) : (State.launch p).memRead (0x3000 + BitVec.ofNat 16 i) = p.program[i] := by
  have haddr : (0x3000 + BitVec.ofNat 16 i : Word).toNat = 0x3000 + i := by bv_omega
  rw [State.memRead_launch hlen, haddr, if_pos (Nat.le_add_right ..), Nat.add_sub_cancel_left,
    List.getElem?_eq_getElem hi, Option.getD_some]

theorem State.memRead_launch_outside {p : LaunchParams} (hlen : p.program.length ≤ 0xD000) {a : Word}
    (ha : a < 0x3000 ∨ 0x3000 + p.program.length ≤ a.toNat) : (State.launch p).memRead a = p.memInit.read a := by
  rw [State.memRead_launch hlen]
  rcases ha with hbelow | hpast
  · have hlt : a.toNat < 0x3000 := BitVec.lt_def.mp hbelow
    rw [if_neg (Nat.not_le_of_lt hlt)]
  · rw [List.getElem?_eq_none (Nat.le_sub_of_add_le' hpast), Option.getD_none, ite_self]

/-- Settles O18: the fields of `State.launch`, and its cells inside and outside the image. -/
theorem launchState : Obligations.LaunchState := fun _ hlen =>
  ⟨rfl, rfl, rfl, fun _ => rfl, fun _ => State.memRead_launch_program hlen,
    fun _ => State.memRead_launch_outside hlen⟩

end Sys2Proof.Machine
